-- ==== Sys2Proof/Word.lean ====
section
/-! DEFINITION. The word types of the machine (00_scope.md R4, 10_state.md R10, R14). -/

namespace Sys2Proof

/-- The contents of a general register or of an I/O register: 8 bits (R4, R10, R22). -/
abbrev Byte := BitVec 8

/-- A word of program memory: 16 bits (R4, R30). -/
abbrev Word := BitVec 16

/-- A word address of program memory, wide enough for the wider of the two program counters the spec
names (R14). On a device with a 16-bit program counter the six high bits are zero, which is part of
`Machine.Inv`. -/
abbrev Pc := BitVec 22

end Sys2Proof
end

