-- ==== Sys2Proof/Syntax.lean ====
section
/-! DEFINITION. The instructions: one constructor per row of spec/opcode_table.json (00_scope.md R3,
tiers 1 and 2). -/

namespace Sys2Proof

/-- The number of a general register, R0 to R31 (R10, R56). -/
abbrev Reg := Fin 32

/-- An address of the I/O space, 0 to 63 (R22, R59). -/
abbrev IoAddr := Fin 64

/-- The 29 instructions. A displacement `k` of a branch or of RJMP is the signed number of words the
manual writes (R57); its range is checked by `Instr.WellFormed`. -/
inductive Instr where
  /- Core tier, one register operand (40_single_register_alu.md). -/
  | clr (d : Reg)
  | inc (d : Reg)
  | dec (d : Reg)
  | com (d : Reg)
  | neg (d : Reg)
  | rol (d : Reg)
  | ror (d : Reg)
  | lsl (d : Reg)
  | lsr (d : Reg)
  | asr (d : Reg)
  | swap (d : Reg)
  /- Core tier, conditional branches (41_conditional_branches.md). -/
  | brne (k : Int)
  | brlo (k : Int)
  | brsh (k : Int)
  | breq (k : Int)
  | brmi (k : Int)
  | brpl (k : Int)
  | brvc (k : Int)
  | brvs (k : Int)
  /- Core tier, unconditional jumps (42_unconditional_jumps.md). -/
  | jmp (k : Pc)
  | rjmp (k : Int)
  | ijmp
  /- Supplementary tier (43_supplementary_instructions.md). -/
  | ldi (d : Reg) (K : Byte)
  | add (d r : Reg)
  | adc (d r : Reg)
  | eor (d r : Reg)
  | out (A : IoAddr) (r : Reg)
  | sen
  | sez
  deriving DecidableEq, Repr

/-- The supplementary tier of R3: LDI, ADD, ADC, EOR, OUT, SEN, SEZ. -/
def Instr.isSupplementary : Instr → Bool
  | .ldi _ _ | .add _ _ | .adc _ _ | .eor _ _ | .out _ _ | .sen | .sez => true
  | .clr _ | .inc _ | .dec _ | .com _ | .neg _ | .rol _ | .ror _ | .lsl _ | .lsr _ | .asr _
  | .swap _ | .brne _ | .brlo _ | .brsh _ | .breq _ | .brmi _ | .brpl _ | .brvc _ | .brvs _
  | .jmp _ | .rjmp _ | .ijmp => false

/-- The size in 16-bit words: every instruction is one word, except JMP, which is two (R50). -/
def Instr.words : Instr → Nat
  | .jmp _ => 2
  | .clr _ | .inc _ | .dec _ | .com _ | .neg _ | .rol _ | .ror _ | .lsl _ | .lsr _ | .asr _
  | .swap _ | .brne _ | .brlo _ | .brsh _ | .breq _ | .brmi _ | .brpl _ | .brvc _ | .brvs _
  | .rjmp _ | .ijmp | .ldi _ _ | .add _ _ | .adc _ _ | .eor _ _ | .out _ _ | .sen | .sez => 1

end Sys2Proof
end

