-- ==== Sys2Proof/WellFormed.lean ====
section
/-! DEFINITION. Which instruction terms are instructions of the machine: the operand ranges of the
manual (R57, R64, R161), and the rule that gives an equal-register word one name (R54, R60). -/

namespace Sys2Proof

/-- A 7-bit signed displacement: −64 ≤ k ≤ +63 (R57). -/
def inBranchRange (k : Int) : Bool := decide (-64 ≤ k) && decide (k ≤ 63)

/-- A 12-bit signed displacement: −2K ≤ k < 2K (R57, R152). -/
def inRjmpRange (k : Int) : Bool := decide (-2048 ≤ k) && decide (k < 2048)

/-- Every operand is inside the range its field can hold (R64). LDI reaches R16 to R31 only (R161).
The types `Reg`, `IoAddr`, `Byte` and `Pc` already hold the other operands to their ranges. -/
def Instr.operandsInRange : Instr → Bool
  | .brne k | .brlo k | .brsh k | .breq k | .brmi k | .brpl k | .brvc k | .brvs k =>
      inBranchRange k
  | .rjmp k => inRjmpRange k
  | .ldi d _ => decide (16 ≤ d.val)
  | .clr _ | .inc _ | .dec _ | .com _ | .neg _ | .rol _ | .ror _ | .lsl _ | .lsr _ | .asr _
  | .swap _ | .jmp _ | .ijmp | .add _ _ | .adc _ _ | .eor _ _ | .out _ _ | .sen | .sez => true

/-- The name the decoder gives the word: the equal-register words of ADD, ADC and EOR are LSL, ROL
and CLR (R54, R60 orders 13 to 18). -/
def Instr.namesItsWord : Instr → Bool
  | .add d r | .adc d r | .eor d r => decide (d ≠ r)
  | .clr _ | .inc _ | .dec _ | .com _ | .neg _ | .rol _ | .ror _ | .lsl _ | .lsr _ | .asr _
  | .swap _ | .brne _ | .brlo _ | .brsh _ | .breq _ | .brmi _ | .brpl _ | .brvc _ | .brvs _
  | .jmp _ | .rjmp _ | .ijmp | .ldi _ _ | .out _ _ | .sen | .sez => true

/-- The instructions the machine has. -/
abbrev Instr.WellFormed (i : Instr) : Prop := i.operandsInRange = true ∧ i.namesItsWord = true

end Sys2Proof
end

