-- ==== Sys2Proof/Decode.lean ====
section
/-! DEFINITION. Decoding, in the order of 30_encoding.md R60, total on any words and any bytes; and
after it the encoder, written from the formats of R52. -/

namespace Sys2Proof

/-! ### Fields (R52, R56, R57, R58, R59) -/

/-- `d` = bits 8:4 (formats RD, RA, RR) and `r` of format IO. -/
def fieldD (w : Word) : Reg := ⟨(w.extractLsb' 4 5).toNat, (w.extractLsb' 4 5).isLt⟩

/-- `r` = bit 9 :: bits 3:0 (formats RR and RA). -/
def fieldR (w : Word) : Reg :=
  ⟨(w.extractLsb' 9 1 ++ w.extractLsb' 0 4).toNat,
    (w.extractLsb' 9 1 ++ w.extractLsb' 0 4).isLt⟩

/-- The register of format RI: 16 + bits 7:4. -/
def fieldHighD (w : Word) : Reg :=
  ⟨16 + (w.extractLsb' 4 4).toNat, Nat.add_lt_add_left (w.extractLsb' 4 4).isLt 16⟩

/-- `K` of format RI = bits 11:8 :: bits 3:0. -/
def fieldK8 (w : Word) : Byte := w.extractLsb' 8 4 ++ w.extractLsb' 0 4

/-- `k` of format BR = bits 9:3, two's complement. -/
def fieldK7 (w : Word) : Int := (w.extractLsb' 3 7).toInt

/-- `k` of format RJ = bits 11:0, two's complement. -/
def fieldK12 (w : Word) : Int := (w.extractLsb' 0 12).toInt

/-- `A` of format IO = bits 10:9 :: bits 3:0. -/
def fieldA (w : Word) : IoAddr :=
  ⟨(w.extractLsb' 9 2 ++ w.extractLsb' 0 4).toNat,
    (w.extractLsb' 9 2 ++ w.extractLsb' 0 4).isLt⟩

/-- The six high bits of JMP's address: `k[21:17]` = bits 8:4, `k[16]` = bit 0 (R58). -/
def fieldJmpHigh (w : Word) : BitVec 6 := w.extractLsb' 4 5 ++ w.extractLsb' 0 1

/-- JMP's 22-bit address from the six high bits and the second word (R58). -/
def jmpAddress (hi : BitVec 6) (w2 : Word) : Pc := hi ++ w2

/-! ### The first word (R51, R60) -/

/-- The eleven instructions the source only names; G8 of 93_implementation_defined.md gives their
encodings so that a decoder can name what it refuses (R168, decision D21). -/
inductive NamedOnly where
  | adiw | and | andi | cbr | fmul | or | ori | sub | subi | tst | call
  deriving DecidableEq, Repr

/-- What a first word says. -/
inductive FirstWord where
  /-- A one-word instruction. -/
  | whole (i : Instr)
  /-- The first word of JMP, with the six high address bits it carries. -/
  | jmpFirst (hi : BitVec 6)
  /-- Order 30 of R60: the encoding is not specified, with the name G8 gives it, if any. -/
  | unlisted (name : Option NamedOnly)
  deriving DecidableEq, Repr

/-- `w & mask = match`. -/
def fits (w mask pattern : Word) : Bool := w &&& mask == pattern

/-- The name G8 gives a word that R60 does not list. TST Rd is AND Rd,Rd, and CBR is ANDI under
another name, so a word of ANDI is named ANDI. -/
def namedOnly (w : Word) : Option NamedOnly :=
  if fits w 0xFF00 0x9600 then some .adiw
  else if fits w 0xFC00 0x2000 then some (if fieldD w = fieldR w then .tst else .and)
  else if fits w 0xF000 0x7000 then some .andi
  else if fits w 0xFF88 0x0308 then some .fmul
  else if fits w 0xFC00 0x2800 then some .or
  else if fits w 0xF000 0x6000 then some .ori
  else if fits w 0xFC00 0x1800 then some .sub
  else if fits w 0xF000 0x5000 then some .subi
  else if fits w 0xFE0E 0x940E then some .call
  else none

/-- Decoding the first word: the tests of R60 in the order of R60. -/
def decodeFirst (w : Word) : FirstWord :=
  if w = 0x9409 then .whole .ijmp
  else if w = 0x9418 then .whole .sez
  else if w = 0x9428 then .whole .sen
  else if fits w 0xFE0E 0x940C then .jmpFirst (fieldJmpHigh w)
  else if fits w 0xFE0F 0x9400 then .whole (.com (fieldD w))
  else if fits w 0xFE0F 0x9401 then .whole (.neg (fieldD w))
  else if fits w 0xFE0F 0x9402 then .whole (.swap (fieldD w))
  else if fits w 0xFE0F 0x9403 then .whole (.inc (fieldD w))
  else if fits w 0xFE0F 0x9405 then .whole (.asr (fieldD w))
  else if fits w 0xFE0F 0x9406 then .whole (.lsr (fieldD w))
  else if fits w 0xFE0F 0x9407 then .whole (.ror (fieldD w))
  else if fits w 0xFE0F 0x940A then .whole (.dec (fieldD w))
  else if fits w 0xFC00 0x0C00 then
    .whole (if fieldD w = fieldR w then .lsl (fieldD w) else .add (fieldD w) (fieldR w))
  else if fits w 0xFC00 0x1C00 then
    .whole (if fieldD w = fieldR w then .rol (fieldD w) else .adc (fieldD w) (fieldR w))
  else if fits w 0xFC00 0x2400 then
    .whole (if fieldD w = fieldR w then .clr (fieldD w) else .eor (fieldD w) (fieldR w))
  else if fits w 0xFC07 0xF000 then .whole (.brlo (fieldK7 w))
  else if fits w 0xFC07 0xF001 then .whole (.breq (fieldK7 w))
  else if fits w 0xFC07 0xF002 then .whole (.brmi (fieldK7 w))
  else if fits w 0xFC07 0xF003 then .whole (.brvs (fieldK7 w))
  else if fits w 0xFC07 0xF400 then .whole (.brsh (fieldK7 w))
  else if fits w 0xFC07 0xF401 then .whole (.brne (fieldK7 w))
  else if fits w 0xFC07 0xF402 then .whole (.brpl (fieldK7 w))
  else if fits w 0xFC07 0xF403 then .whole (.brvc (fieldK7 w))
  else if fits w 0xF000 0xC000 then .whole (.rjmp (fieldK12 w))
  else if fits w 0xF000 0xE000 then .whole (.ldi (fieldHighD w) (fieldK8 w))
  else if fits w 0xF800 0xB800 then .whole (.out (fieldA w) (fieldD w))
  else .unlisted (namedOnly w)

/-! ### Words and bytes -/

/-- Why the decoder gives no instruction. -/
inductive DecodeError where
  /-- The first word is not in the opcode table (R63). -/
  | encodingNotSpecified (name : Option NamedOnly)
  /-- The words end before the instruction does. -/
  | wordMissing
  /-- The bytes end in the middle of a word. -/
  | oddByte
  deriving DecidableEq, Repr

/-- The instruction at the head of a list of program words, and the words after it. -/
def decode : List Word → Except DecodeError (Instr × List Word)
  | [] => .error .wordMissing
  | w :: ws =>
    match decodeFirst w with
    | .whole i => .ok (i, ws)
    | .unlisted name => .error (.encodingNotSpecified name)
    | .jmpFirst hi =>
      match ws with
      | [] => .error .wordMissing
      | w2 :: rest => .ok (.jmp (jmpAddress hi w2), rest)

/-- A word from its two bytes: the low byte stands at the lower byte address (R34, decision D5). -/
def wordOfBytes (lo hi : Byte) : Word := hi ++ lo

/-- The program words of a list of bytes. -/
def wordsOfBytes : List Byte → Except DecodeError (List Word)
  | [] => .ok []
  | [_] => .error .oddByte
  | lo :: hi :: rest =>
    match wordsOfBytes rest with
    | .ok ws => .ok (wordOfBytes lo hi :: ws)
    | .error e => .error e

/-- Decoding on bytes, total: the words the bytes hold, then `decode`. -/
def decodeBytes (bs : List Byte) : Except DecodeError (Instr × List Word) :=
  match wordsOfBytes bs with
  | .ok ws => decode ws
  | .error e => .error e

/-- The four bytes of an instruction as spec/opcode_table.json numbers its bits: bit 0 is the least
significant bit of the first word, the second word's bits count on from 16, every bit from `nbits`
up is 0, and each word has its low byte at the lower address. -/
def tableBytes (nbits w : Nat) : List Byte :=
  let v := w % Nat.pow 2 nbits
  [BitVec.ofNat 8 v, BitVec.ofNat 8 (v / 256), BitVec.ofNat 8 (v / 65536),
    BitVec.ofNat 8 (v / 16777216)]

/-- The instruction the decoder reads from an instruction whose bits are `w`. -/
def decodeTableWord (nbits w : Nat) : Option Instr :=
  match decodeBytes (tableBytes nbits w) with
  | .ok (i, _) => some i
  | .error _ => none

/-! ### The encoder (R52, R54, R58, R59) -/

/-- A register number as its 5-bit field (R56). -/
def regBits (d : Reg) : BitVec 5 := BitVec.ofNat 5 d.val

/-- An I/O address as its 6-bit field (R59). -/
def ioBits (A : IoAddr) : BitVec 6 := BitVec.ofNat 6 A.val

/-- Format RD: `1001 010d dddd ffff`. -/
def encodeRD (d : Reg) (f : BitVec 4) : Word := 0b1001010#7 ++ regBits d ++ f

/-- Format RR: `oooo oord dddd rrrr`; with `r = d`, format RA (R54). -/
def encodeRR (op : BitVec 6) (d r : Reg) : Word :=
  op ++ (regBits r).extractLsb' 4 1 ++ regBits d ++ (regBits r).extractLsb' 0 4

/-- Format BR: `1111 0skk kkkk kbbb`. -/
def encodeBR (s : BitVec 1) (k : Int) (b : BitVec 3) : Word :=
  0b11110#5 ++ s ++ BitVec.ofInt 7 k ++ b

/-- The words of an instruction. -/
def encode : Instr → List Word
  | .com d => [encodeRD d 0b0000]
  | .neg d => [encodeRD d 0b0001]
  | .swap d => [encodeRD d 0b0010]
  | .inc d => [encodeRD d 0b0011]
  | .asr d => [encodeRD d 0b0101]
  | .lsr d => [encodeRD d 0b0110]
  | .ror d => [encodeRD d 0b0111]
  | .dec d => [encodeRD d 0b1010]
  | .clr d => [encodeRR 0b001001 d d]
  | .lsl d => [encodeRR 0b000011 d d]
  | .rol d => [encodeRR 0b000111 d d]
  | .eor d r => [encodeRR 0b001001 d r]
  | .add d r => [encodeRR 0b000011 d r]
  | .adc d r => [encodeRR 0b000111 d r]
  | .brlo k => [encodeBR 0 k 0b000]
  | .breq k => [encodeBR 0 k 0b001]
  | .brmi k => [encodeBR 0 k 0b010]
  | .brvs k => [encodeBR 0 k 0b011]
  | .brsh k => [encodeBR 1 k 0b000]
  | .brne k => [encodeBR 1 k 0b001]
  | .brpl k => [encodeBR 1 k 0b010]
  | .brvc k => [encodeBR 1 k 0b011]
  | .rjmp k => [0b1100#4 ++ BitVec.ofInt 12 k]
  | .jmp k =>
      [0b1001010#7 ++ k.extractLsb' 17 5 ++ 0b110#3 ++ k.extractLsb' 16 1, k.extractLsb' 0 16]
  | .ijmp => [0b1001010000001001]
  | .ldi d K => [0b1110#4 ++ K.extractLsb' 4 4 ++ BitVec.ofNat 4 (d.val - 16) ++ K.extractLsb' 0 4]
  | .out A r => [0b10111#5 ++ (ioBits A).extractLsb' 4 2 ++ regBits r ++ (ioBits A).extractLsb' 0 4]
  | .sen => [0b1001010000101000]
  | .sez => [0b1001010000011000]

end Sys2Proof
end

