-- ==== Sys2Proof/Config.lean ====
section
/-! DEFINITION. What the source leaves to the device: the parameters of 00_scope.md R5, one field
each, with the legal values R5 gives them. The configuration is a field of `Machine.State` that no
step changes, so a claim about every state is a claim about every device. -/

namespace Sys2Proof

/-- `PC_BITS`: the two widths of the program counter the source names (R5, R14). -/
inductive PcWidth where
  | pc16
  | pc22
  deriving DecidableEq, Repr

/-- The number of bits of the program counter. -/
def PcWidth.bits : PcWidth → Nat
  | .pc16 => 16
  | .pc22 => 22

/-- `2^PC_BITS`, the modulus of every next-PC sum (R17) and the most words a device can have (R30). -/
def PcWidth.words : PcWidth → Nat
  | .pc16 => 65536
  | .pc22 => 4194304

/-- The device and the launch arguments (R5). -/
structure Config where
  /-- `PC_BITS` (R5, R14). -/
  pcWidth : PcWidth
  /-- `FLASH_WORDS`: words of program memory present (R5, R30). -/
  flashWords : Nat
  /-- `HAS_JMP`: the two-word JMP is implemented (R5, decision D3). -/
  hasJmp : Bool
  /-- The supplementary tier is admitted (R63, decision D1). -/
  admitSupplementary : Bool
  /-- `PORTB_ADDR` (R5, R37). -/
  portbAddr : IoAddr
  /-- `IO_PLAIN`: the I/O addresses OUT may write (R5, R36), as a list with no repeats. -/
  ioPlain : List IoAddr
  /-- `RESET_PC` (R5, R220). -/
  resetPc : Pc
  /-- `SREG_RESET` (R5, R25), bits I T H S V N Z C = 7..0. -/
  sregReset : Byte
  /-- `END_PC` (R5, R226); `none` for a run whose program ends in a self-loop instead. -/
  endPc : Option Pc
  deriving DecidableEq, Repr

/-- The I/O addresses of CPU registers, which `IO_PLAIN` must not contain (R21, R36). The spec gives
one number, 0x3F for SREG. PRESUMED: 0x38 to 0x3E for the others (notes/assumptions/6.md). -/
def Config.isCpuRegister (A : IoAddr) : Bool := decide (0x38 ≤ A.val)

/-- The legal values of R5. -/
abbrev Config.wf (c : Config) : Prop :=
  1 ≤ c.flashWords ∧ c.flashWords ≤ c.pcWidth.words ∧
  c.resetPc.toNat < c.pcWidth.words ∧
  c.ioPlain.Nodup ∧ c.portbAddr ∈ c.ioPlain ∧
  (∀ A ∈ c.ioPlain, Config.isCpuRegister A = false)

/-- The device `Machine.State.reset` describes. DESIGN CHOICE (notes/assumptions/1.md): the wider
program counter with all of its program memory, every instruction admitted, `RESET_PC` and
`SREG_RESET` at the spec's defaults (R5, R25), `PORTB_ADDR` as in 95_test_vectors.md, `IO_PLAIN` as
large as R36 lets it be (notes/assumptions/6.md), and no `END_PC`. -/
def Config.reference : Config where
  pcWidth := .pc22
  flashWords := 4194304
  hasJmp := true
  admitSupplementary := true
  portbAddr := 0x18
  ioPlain := (List.range 0x38).map (fun n => Fin.ofNat 64 n)
  resetPc := 0
  sregReset := 0x00
  endPc := none

end Sys2Proof
end

