-- ==== Sys2Proof/Machine/Sreg.lean ====
section
/-! DEFINITION. The status register SREG: eight stored flags (10_state.md R18 to R21). -/

namespace Sys2Proof.Machine

/-- The names of the flags, by their bit in SREG: C is bit 0 and I is bit 7 (R18). -/
inductive Flag where
  | C | Z | N | V | S | H | T | I
  deriving DecidableEq, Repr

/-- SREG as eight stored flags (R18, R20). Every bit is plain read and write storage (R21); S is
stored and is not computed from N and V when read (R20). -/
structure Sreg where
  I : Bool
  T : Bool
  H : Bool
  S : Bool
  V : Bool
  N : Bool
  Z : Bool
  C : Bool
  deriving DecidableEq, Repr

/-- The value of one flag. -/
def Sreg.get (f : Sreg) : Flag → Bool
  | .C => f.C
  | .Z => f.Z
  | .N => f.N
  | .V => f.V
  | .S => f.S
  | .H => f.H
  | .T => f.T
  | .I => f.I

/-- SREG read as the byte `I T H S V N Z C` = bits 7..0 (R18). DEDUCED for C, Z, N, V, PRESUMED for
S, H, T, I, as the spec marks them (notes/assumptions/9.md). -/
def Sreg.toByte (f : Sreg) : Byte :=
  BitVec.ofBool f.I ++ BitVec.ofBool f.T ++ BitVec.ofBool f.H ++ BitVec.ofBool f.S ++
    BitVec.ofBool f.V ++ BitVec.ofBool f.N ++ BitVec.ofBool f.Z ++ BitVec.ofBool f.C

/-- The flags of a byte in the same bit order; it gives SREG its reset value (R25). -/
def Sreg.ofByte (b : Byte) : Sreg where
  I := b.getLsbD 7
  T := b.getLsbD 6
  H := b.getLsbD 5
  S := b.getLsbD 4
  V := b.getLsbD 3
  N := b.getLsbD 2
  Z := b.getLsbD 1
  C := b.getLsbD 0

end Sys2Proof.Machine
end

