-- ==== Sys2Proof/Machine/State.lean ====
section
/-! DEFINITION. The whole state of the machine (10_state.md, 20_memory.md R35, 70_reset_and_hazards.md
R230), the reasons a step can stop, and the state after reset (R25, R220). -/

namespace Sys2Proof.Machine

/-- The bytes of program memory that hold a loaded word, by byte address (word `a` is the bytes
`2a` and `2a + 1`, R34), in one canonical form: see `Memory.wf`. -/
abbrev Memory := List Host.Cell

/-- One write to the I/O space: the address and the value (R35). -/
abbrev IoEvent := IoAddr × Byte

/-- The state of the one agent, the AVR core (R208), with the device it runs on. -/
structure State where
  /-- The device and the launch arguments (R5). No step changes them. -/
  cfg : Config
  /-- R0 to R31, 8 bits each (R10, R12). The Z pointer is a view of R31 and R30 (R13). -/
  regs : Vector Byte 32
  /-- The status register (R18). -/
  sreg : Sreg
  /-- The program counter, a word address (R14). -/
  pc : Pc
  /-- Program memory (R30). No step changes it (R32). -/
  prog : Memory
  /-- The I/O space, 64 registers of 8 bits (R22, R35, R210). PORTB is the one at `cfg.portbAddr`. -/
  io : Vector Byte 64
  /-- The writes to the I/O space so far, oldest first (R35, R226). -/
  ioTrace : List IoEvent
  /-- A ghost count of clock cycles (R230, decision D19). No instruction reads it. -/
  cycles : Nat
  deriving DecidableEq, Repr

/-- What stops the machine with a fault. The hardware in scope has no exception and no fault of its
own (R200); no meaning of an instruction raises one. -/
inductive Fault where
  /-- Raised by the fetch, when a word of program memory inside `FLASH_WORDS` holds no loaded word:
  its contents are unspecified and a proof must exclude the fetch (R223). Safe. -/
  | programWordNotLoaded
  deriving DecidableEq, Repr

/-- Why the model gives a step no meaning; each but the first is a `refuse` of the spec (R7, R200).
All are safe: nothing is provable of what the hardware does there. -/
inductive Refusal where
  /-- Raised by `exec` for an instruction whose meaning is not written yet; no arm raises it now. Safe. -/
  | notModelled (mnemonic : String)
  /-- Raised by the decoding of the first word: not in the opcode table (R63), with the name
  93_implementation_defined.md G8 gives the word, if any (R168, decision D21). Safe. -/
  | encodingNotSpecified (name : Option NamedOnly)
  /-- Raised by the decoding of the first word on a device that does not admit the supplementary tier
  (R63, decision D1). Safe. -/
  | supplementaryNotAdmitted
  /-- Raised by the decoding of the first word of JMP where `HAS_JMP` is false (R63, decision D3). Safe. -/
  | jmpNotImplemented
  /-- Raised by the fetch of a word at an address `≥ FLASH_WORDS` (R33, decision D2). Safe. -/
  | fetchOutsideProgramMemory
  /-- Raised by JMP when its target needs more bits than the program counter has (R151, decision D3).
  Safe. -/
  | jmpTargetWiderThanPc
  /-- Raised by OUT to an address outside `IO_PLAIN` (R36, R165, decision D13). Safe. -/
  | outAddressNotPlain
  deriving DecidableEq, Repr

/-- The one initial state of a run (R220): the program counter at `RESET_PC`, SREG at `SREG_RESET`,
the loaded program, an empty output trace, and the given contents of the general registers and of
the I/O space, which the spec leaves unspecified (R25). -/
def State.initial (cfg : Config) (regs : Vector Byte 32) (io : Vector Byte 64) (prog : Memory) :
    State where
  cfg := cfg
  regs := regs
  sreg := Sreg.ofByte cfg.sregReset
  pc := cfg.resetPc
  prog := prog
  io := io
  ioTrace := []
  cycles := 0

/-- The machine right after reset on the reference device, with no program loaded. DESIGN CHOICE
(notes/assumptions/2.md): the general registers and the I/O registers, to which the spec gives no reset
value (R25), hold 0. Claims about a run are made from `State.initial`, for every such contents. -/
def State.reset : State :=
  State.initial Config.reference (Vector.replicate 32 0) (Vector.replicate 64 0) []

end Sys2Proof.Machine
end

