-- ==== Sys2Proof/Machine/Ops.lean ====
section
/-! DEFINITION. The named operations over registers, flags, the program counter, program memory and
the I/O space. The hardware in scope takes no exception and has no return from one (60_exceptions.md
R200 to R206), so there is no operation for either. -/

namespace Sys2Proof.Machine

/-- What an instruction or a fetch answers. -/
abbrev Answer (α : Type) := Host.Outcome α Fault Refusal

/-- Go on with what the first answer gives; a stop stays a stop. -/
def Answer.andThen {α β : Type} (x : Answer α) (f : α → Answer β) : Answer β :=
  match x with
  | .next a => f a
  | .fault r => .fault r
  | .refused r => .refused r

/-! ### General registers and SREG -/

/-- Read general register `Rd`; none is hard-wired (R12). -/
def State.readReg (s : State) (d : Reg) : Byte := s.regs[d.val]'d.isLt

/-- Write general register `Rd`. -/
def State.writeReg (s : State) (d : Reg) (v : Byte) : State :=
  { s with regs := s.regs.set d.val v d.isLt }

/-- Replace the flags. -/
def State.writeSreg (s : State) (f : Sreg) : State := { s with sreg := f }

/-! ### The program counter -/

/-- A next-PC sum reduced modulo `2^PC_BITS` (R17, decision D2). -/
def pcWrap (w : PcWidth) (n : Int) : Pc := BitVec.ofNat 22 (n % (w.words : Int)).toNat

/-- `pc + k + 1`: a displacement counts words from the following instruction (R15, R16). -/
def State.relativeTarget (s : State) (k : Int) : Pc :=
  pcWrap s.cfg.pcWidth ((s.pc.toNat : Int) + k + 1)

/-- `pc + 1`: the following instruction of a one-word instruction (R16). -/
def State.sequentialTarget (s : State) : Pc :=
  pcWrap s.cfg.pcWidth ((s.pc.toNat : Int) + 1)

/-- Set the address of the next instruction, and add the cost to the ghost cycle count (R7, R230). -/
def State.goTo (s : State) (target : Pc) (cost : Nat) : State :=
  { s with pc := target, cycles := s.cycles + cost }

/-- The end of a one-word instruction that does not jump: `pc <- pc + 1`, one cycle (R16, R230). -/
def State.advance (s : State) : State := s.goTo s.sequentialTarget 1

/-! ### Program memory -/

/-- The byte at a byte address, where one is loaded. -/
def Memory.read : Memory → Nat → Option Byte
  | [], _ => none
  | (b, v) :: m, a => if a = b then some v else Memory.read m a

/-- Store one byte, keeping the addresses strictly rising. -/
def Memory.write : Memory → Nat → Byte → Memory
  | [], a, v => [(a, v)]
  | (b, u) :: m, a, v =>
    if a < b then (a, v) :: (b, u) :: m
    else if a = b then (a, v) :: m
    else (b, u) :: Memory.write m a v

/-- Store consecutive bytes from an address. -/
def Memory.writeBytes : Memory → Nat → List Byte → Memory
  | m, _, [] => m
  | m, a, v :: vs => Memory.writeBytes (Memory.write m a v) (a + 1) vs

/-- The two bytes of a word, the low byte first (R34). -/
def bytesOfWord (w : Word) : List Byte := [w.extractLsb' 0 8, w.extractLsb' 8 8]

/-- Place program words from a word address (R223). -/
def Memory.loadWords : Memory → Nat → List Word → Memory
  | m, _, [] => m
  | m, a, w :: ws => Memory.loadWords (Memory.writeBytes m (2 * a) (bytesOfWord w)) (a + 1) ws

/-- The canonical form: addresses strictly rising. An unlisted address reads as no value, so no entry
can equal what an unlisted address reads as. -/
abbrev Memory.wf (m : Memory) : Prop := List.Pairwise (fun x y => x.1 < y.1) m

/-- `ProgRead(a)` (R31): the word at word address `a`. Outside `FLASH_WORDS` it is refused (R33); a
word that nothing has loaded faults (R223, DESIGN CHOICE of notes/assumptions/4.md). -/
def State.progRead (s : State) (a : Nat) : Answer Word :=
  if a < s.cfg.flashWords then
    match Memory.read s.prog (2 * a), Memory.read s.prog (2 * a + 1) with
    | some lo, some hi => .next (wordOfBytes lo hi)
    | _, _ => .fault .programWordNotLoaded
  else .refused .fetchOutsideProgramMemory

/-! ### The I/O space -/

/-- The contents of the I/O register at an address. No instruction in scope reads it (R37). -/
def State.readIo (s : State) (A : IoAddr) : Byte := s.io[A.val]'A.isLt

/-- PORTB, the I/O register at `PORTB_ADDR` (R37, R210). -/
def State.portB (s : State) : Byte := s.readIo s.cfg.portbAddr

/-- `IoWrite(A, v)` (R35): store the byte and append the event. -/
def State.ioWrite (s : State) (A : IoAddr) (v : Byte) : State :=
  { s with io := s.io.set A.val v A.isLt, ioTrace := s.ioTrace ++ [(A, v)] }

/-- The value of the last write to an address in a trace, if there is one. -/
def lastWrite (A : IoAddr) : List IoEvent → Option Byte
  | [] => none
  | e :: es =>
    match lastWrite A es with
    | some v => some v
    | none => if e.1 = A then some e.2 else none

end Sys2Proof.Machine
end

