-- ==== Sys2Proof/Machine/Operands.lean ====
section
/-! DEFINITION. The operand forms that are more than a register number or a constant of the
instruction word, and the results of the arithmetic and logic instructions. -/

namespace Sys2Proof.Machine

/-- The Z pointer: `Z(15:8) = R31`, `Z(7:0) = R30`, a view of those registers (R13, decision D4). -/
def State.zPointer (s : State) : BitVec 16 := s.readReg 31 ++ s.readReg 30

/-- A word address read from the Z pointer: on a 22-bit program counter the bits 21:16 are 0 (R153). -/
def State.zTarget (s : State) : Pc := s.zPointer.setWidth 22

/-- The carry flag as a number. -/
def carryOf (c : Bool) : Nat := if c then 1 else 0

/-- `(Rd + Rr + C) mod 256` (R162, R163). -/
def addResult (rd rr : Byte) (c : Bool) : Byte :=
  BitVec.ofNat 8 (rd.toNat + rr.toNat + carryOf c)

/-- `(Rd + 1) mod 256` (R102). -/
def incResult (rd : Byte) : Byte := rd + 1

/-- `(Rd - 1) mod 256` (R103). -/
def decResult (rd : Byte) : Byte := rd - 1

/-- `0xFF - Rd` (R104). -/
def comResult (rd : Byte) : Byte := 0xFF - rd

/-- `(0x00 - Rd) mod 256` (R105). -/
def negResult (rd : Byte) : Byte := 0x00 - rd

/-- `R[7:1] = Rd[6:0]`, `R[0] = b`: ROL with `b` the old carry, LSL with `b = 0` (R106, R108). -/
def shiftLeftIn (rd : Byte) (b : Bool) : Byte := rd.extractLsb' 0 7 ++ BitVec.ofBool b

/-- `R[7] = b`, `R[6:0] = Rd[7:1]`: ROR with `b` the old carry, LSR with `b = 0`, ASR with
`b = Rd[7]` (R107, R109, R110). -/
def shiftRightIn (b : Bool) (rd : Byte) : Byte := BitVec.ofBool b ++ rd.extractLsb' 1 7

/-- `R(7:4) = Rd(3:0)`, `R(3:0) = Rd(7:4)` (R111). -/
def swapResult (rd : Byte) : Byte := rd.extractLsb' 0 4 ++ rd.extractLsb' 4 4

end Sys2Proof.Machine
end

