-- ==== Sys2Proof/Machine/Flags.lean ====
section
/-! DEFINITION. Every flag computation of the spec (40_single_register_alu.md R100 to R111,
43_supplementary_instructions.md R162 to R164, R166, R167). A flag that a formula does not name keeps
its old value (R8). -/

namespace Sys2Proof.Machine

/-- The three formulas of R100 over the result, with the instruction's own V: `N = R[7]`,
`Z = (R = 0x00)`, `S = N ⊕ V` from the new N and the new V. -/
def Sreg.withResult (f : Sreg) (R : Byte) (v : Bool) : Sreg :=
  { f with N := R.getLsbD 7, Z := decide (R = 0x00), V := v, S := R.getLsbD 7 ^^ v }

/-- CLR: S, V, N are 0 and Z is 1, whatever the old value (R101). -/
def clrFlags (f : Sreg) : Sreg := { f with S := false, V := false, N := false, Z := true }

/-- INC: V when the result is 0x80 (R102). -/
def incFlags (f : Sreg) (R : Byte) : Sreg := f.withResult R (decide (R = 0x80))

/-- DEC: V when the result is 0x7F (R103). -/
def decFlags (f : Sreg) (R : Byte) : Sreg := f.withResult R (decide (R = 0x7F))

/-- COM: V is 0 and C is 1 (R104). -/
def comFlags (f : Sreg) (R : Byte) : Sreg := { f.withResult R false with C := true }

/-- NEG: H is the borrow from bit 3, which follows the page's sentence and not its damaged formula
(R105, 90_conflicts.md C3); V when the result is 0x80; C when it is not 0x00. -/
def negFlags (f : Sreg) (rd R : Byte) : Sreg :=
  { f.withResult R (decide (R = 0x80)) with
    H := decide (rd.extractLsb' 0 4 ≠ 0#4), C := decide (R ≠ 0x00) }

/-- A shift or rotate that leaves H alone: C is the bit shifted out, V = N ⊕ C of the new N and the
new C (R107, R109, R110; for LSR the result has bit 7 clear, so N = 0). -/
def shiftRightFlags (f : Sreg) (R : Byte) (out : Bool) : Sreg :=
  { f.withResult R (R.getLsbD 7 ^^ out) with C := out }

/-- A left shift or rotate: as above with C = `Rd[7]`, and H = `Rd[3]` (R106, R108). -/
def shiftLeftFlags (f : Sreg) (rd R : Byte) : Sreg :=
  { f.withResult R (R.getLsbD 7 ^^ rd.getLsbD 7) with C := rd.getLsbD 7, H := rd.getLsbD 3 }

/-- ADD and ADC, over the exact sums: H is the carry out of bit 3, C the carry out of bit 7, V when
both operands have one sign and the result the other (R162, R163). -/
def addFlags (f : Sreg) (rd rr : Byte) (c : Bool) : Sreg :=
  let R := addResult rd rr c
  { f.withResult R
      ((rd.getLsbD 7 && rr.getLsbD 7 && !R.getLsbD 7) ||
        (!rd.getLsbD 7 && !rr.getLsbD 7 && R.getLsbD 7)) with
    H := decide (15 < (rd.extractLsb' 0 4).toNat + (rr.extractLsb' 0 4).toNat + carryOf c)
    C := decide (255 < rd.toNat + rr.toNat + carryOf c) }

/-- EOR: V is 0 (R164). -/
def eorFlags (f : Sreg) (R : Byte) : Sreg := f.withResult R false

/-- SEN: N is 1 and nothing else changes, S included (R166). -/
def senFlags (f : Sreg) : Sreg := { f with N := true }

/-- SEZ: Z is 1 and nothing else changes (R167). -/
def sezFlags (f : Sreg) : Sreg := { f with Z := true }

end Sys2Proof.Machine
end

