-- ==== Sys2Proof/Machine/Branches.lean ====
section
/-! DEFINITION. The conditional branches (41_conditional_branches.md R130 to R139). The flag form of
the operation is the one that counts (R140, 90_conflicts.md C6). -/

namespace Sys2Proof.Machine

/-- The common operation of R131: where the flag has the wanted value, go to `pc + k + 1` in 2 cycles;
else to `pc + 1` in 1 cycle (R130, R230). -/
def State.branchOn (s : State) (f : Flag) (wanted : Bool) (k : Int) : State :=
  if s.sreg.get f = wanted then s.goTo (s.relativeTarget k) 2
  else s.goTo s.sequentialTarget 1

/-- BRNE k (R132): branch if Z = 0. -/
def execBrne (k : Int) (s : State) : Answer State := .next (s.branchOn .Z false k)

/-- BRLO k (R133): branch if C = 1. -/
def execBrlo (k : Int) (s : State) : Answer State := .next (s.branchOn .C true k)

/-- BRSH k (R134): branch if C = 0. -/
def execBrsh (k : Int) (s : State) : Answer State := .next (s.branchOn .C false k)

/-- BREQ k (R135): branch if Z = 1. -/
def execBreq (k : Int) (s : State) : Answer State := .next (s.branchOn .Z true k)

/-- BRMI k (R136): branch if N = 1. -/
def execBrmi (k : Int) (s : State) : Answer State := .next (s.branchOn .N true k)

/-- BRPL k (R137): branch if N = 0. -/
def execBrpl (k : Int) (s : State) : Answer State := .next (s.branchOn .N false k)

/-- BRVC k (R138): branch if V = 0. -/
def execBrvc (k : Int) (s : State) : Answer State := .next (s.branchOn .V false k)

/-- BRVS k (R139): branch if V = 1. -/
def execBrvs (k : Int) (s : State) : Answer State := .next (s.branchOn .V true k)

end Sys2Proof.Machine
end

