-- ==== Sys2Proof/Machine/Jumps.lean ====
section
/-! DEFINITION. The unconditional jumps (42_unconditional_jumps.md R150 to R153). None writes a
register, a flag, memory or the stack. -/

namespace Sys2Proof.Machine

/-- JMP k (R151): an absolute word address, in 3 cycles. A target that the program counter cannot hold
is refused (decision D3); a target outside the implemented memory is refused at the next fetch. -/
def execJmp (k : Pc) (s : State) : Answer State :=
  if k.toNat < s.cfg.pcWidth.words then .next (s.goTo k 3)
  else .refused .jmpTargetWiderThanPc

/-- RJMP k (R152): `pc + k + 1`, in 2 cycles. -/
def execRjmp (k : Int) (s : State) : Answer State := .next (s.goTo (s.relativeTarget k) 2)

/-- IJMP (R153): the word address in Z, in 2 cycles. -/
def execIjmp (s : State) : Answer State := .next (s.goTo s.zTarget 2)

end Sys2Proof.Machine
end

