-- ==== Sys2Proof/Machine/OneRegister.lean ====
section
/-! DEFINITION. The one-register arithmetic, logic, shift and rotate instructions
(40_single_register_alu.md R100 to R111). Every source is read before anything is written (R8, R228). -/

namespace Sys2Proof.Machine

/-- What every register instruction with a result does (R100): the result goes to `Rd`, the flags are
replaced, and the next instruction follows. -/
def State.finish (s : State) (d : Reg) (R : Byte) (f : Sreg) : State :=
  ((s.writeReg d R).writeSreg f).advance

/-- CLR Rd (R101). -/
def execClr (d : Reg) (s : State) : Answer State :=
  let rd := s.readReg d
  .next (s.finish d (rd ^^^ rd) (clrFlags s.sreg))

/-- INC Rd (R102). -/
def execInc (d : Reg) (s : State) : Answer State :=
  let R := incResult (s.readReg d)
  .next (s.finish d R (incFlags s.sreg R))

/-- DEC Rd (R103). -/
def execDec (d : Reg) (s : State) : Answer State :=
  let R := decResult (s.readReg d)
  .next (s.finish d R (decFlags s.sreg R))

/-- COM Rd (R104). -/
def execCom (d : Reg) (s : State) : Answer State :=
  let R := comResult (s.readReg d)
  .next (s.finish d R (comFlags s.sreg R))

/-- NEG Rd (R105). -/
def execNeg (d : Reg) (s : State) : Answer State :=
  let rd := s.readReg d
  let R := negResult rd
  .next (s.finish d R (negFlags s.sreg rd R))

/-- ROL Rd (R106): the old C is shifted into bit 0. -/
def execRol (d : Reg) (s : State) : Answer State :=
  let rd := s.readReg d
  let R := shiftLeftIn rd s.sreg.C
  .next (s.finish d R (shiftLeftFlags s.sreg rd R))

/-- ROR Rd (R107): the old C is shifted into bit 7, bit 0 goes to C. -/
def execRor (d : Reg) (s : State) : Answer State :=
  let rd := s.readReg d
  let R := shiftRightIn s.sreg.C rd
  .next (s.finish d R (shiftRightFlags s.sreg R (rd.getLsbD 0)))

/-- LSL Rd (R108): bit 0 is cleared. -/
def execLsl (d : Reg) (s : State) : Answer State :=
  let rd := s.readReg d
  let R := shiftLeftIn rd false
  .next (s.finish d R (shiftLeftFlags s.sreg rd R))

/-- LSR Rd (R109): bit 7 is cleared. -/
def execLsr (d : Reg) (s : State) : Answer State :=
  let rd := s.readReg d
  let R := shiftRightIn false rd
  .next (s.finish d R (shiftRightFlags s.sreg R (rd.getLsbD 0)))

/-- ASR Rd (R110): bit 7 is held. -/
def execAsr (d : Reg) (s : State) : Answer State :=
  let rd := s.readReg d
  let R := shiftRightIn (rd.getLsbD 7) rd
  .next (s.finish d R (shiftRightFlags s.sreg R (rd.getLsbD 0)))

/-- SWAP Rd (R111): no flag changes. -/
def execSwap (d : Reg) (s : State) : Answer State :=
  .next (s.finish d (swapResult (s.readReg d)) s.sreg)

end Sys2Proof.Machine
end

