-- ==== Sys2Proof/Machine/Supplementary.lean ====
section
/-! DEFINITION. The supplementary instructions (43_supplementary_instructions.md R160 to R167). The
spec takes their encodings, and the flag formulas of unequal registers, from general knowledge
(notes/assumptions/8.md). -/

namespace Sys2Proof.Machine

/-- LDI Rd, K (R161): no flag changes. -/
def execLdi (d : Reg) (K : Byte) (s : State) : Answer State := .next (s.finish d K s.sreg)

/-- ADD Rd, Rr (R162): the old C is not read. -/
def execAdd (d r : Reg) (s : State) : Answer State :=
  let rd := s.readReg d
  let rr := s.readReg r
  .next (s.finish d (addResult rd rr false) (addFlags s.sreg rd rr false))

/-- ADC Rd, Rr (R163): with the old C as carry in. -/
def execAdc (d r : Reg) (s : State) : Answer State :=
  let rd := s.readReg d
  let rr := s.readReg r
  .next (s.finish d (addResult rd rr s.sreg.C) (addFlags s.sreg rd rr s.sreg.C))

/-- EOR Rd, Rr (R164). -/
def execEor (d r : Reg) (s : State) : Answer State :=
  let R := s.readReg d ^^^ s.readReg r
  .next (s.finish d R (eorFlags s.sreg R))

/-- OUT A, Rr (R165): only to an address of `IO_PLAIN` (R36). -/
def execOut (A : IoAddr) (r : Reg) (s : State) : Answer State :=
  if A ∈ s.cfg.ioPlain then .next (s.ioWrite A (s.readReg r)).advance
  else .refused .outAddressNotPlain

/-- SEN (R166). -/
def execSen (s : State) : Answer State := .next (s.writeSreg (senFlags s.sreg)).advance

/-- SEZ (R167). -/
def execSez (s : State) : Answer State := .next (s.writeSreg (sezFlags s.sreg)).advance

end Sys2Proof.Machine
end

