-- ==== Sys2Proof/Machine/Dispatch.lean ====
section
/-! DEFINITION. One arm per instruction of the opcode table. -/

namespace Sys2Proof.Machine

def exec (i : Instr) (s : State) : Host.Outcome State Fault Refusal :=
  match i with
  -- 40_single_register_alu.md
  | .clr d => Sys2Proof.Machine.execClr d s
  | .inc d => Sys2Proof.Machine.execInc d s
  | .dec d => Sys2Proof.Machine.execDec d s
  | .com d => Sys2Proof.Machine.execCom d s
  | .neg d => Sys2Proof.Machine.execNeg d s
  | .rol d => Sys2Proof.Machine.execRol d s
  | .ror d => Sys2Proof.Machine.execRor d s
  | .lsl d => Sys2Proof.Machine.execLsl d s
  | .lsr d => Sys2Proof.Machine.execLsr d s
  | .asr d => Sys2Proof.Machine.execAsr d s
  | .swap d => Sys2Proof.Machine.execSwap d s
  -- 41_conditional_branches.md
  | .brne k => Sys2Proof.Machine.execBrne k s
  | .brlo k => Sys2Proof.Machine.execBrlo k s
  | .brsh k => Sys2Proof.Machine.execBrsh k s
  | .breq k => Sys2Proof.Machine.execBreq k s
  | .brmi k => Sys2Proof.Machine.execBrmi k s
  | .brpl k => Sys2Proof.Machine.execBrpl k s
  | .brvc k => Sys2Proof.Machine.execBrvc k s
  | .brvs k => Sys2Proof.Machine.execBrvs k s
  -- 42_unconditional_jumps.md
  | .jmp k => Sys2Proof.Machine.execJmp k s
  | .rjmp k => Sys2Proof.Machine.execRjmp k s
  | .ijmp => Sys2Proof.Machine.execIjmp s
  -- 43_supplementary_instructions.md
  | .ldi d K => Sys2Proof.Machine.execLdi d K s
  | .add d r => Sys2Proof.Machine.execAdd d r s
  | .adc d r => Sys2Proof.Machine.execAdc d r s
  | .eor d r => Sys2Proof.Machine.execEor d r s
  | .out A r => Sys2Proof.Machine.execOut A r s
  | .sen => Sys2Proof.Machine.execSen s
  | .sez => Sys2Proof.Machine.execSez s

end Sys2Proof.Machine
end

