-- ==== Sys2Proof/Machine/Fetch.lean ====
section
/-! DEFINITION. Fetching one instruction, with the refusals in the order of 60_exceptions.md R203:
the fetch of the first word, its decoding, and for JMP the fetch of the second word. -/

namespace Sys2Proof.Machine

/-- The device has the instruction (R63): the supplementary tier is admitted, JMP is implemented. -/
def deviceRefuses (c : Config) (i : Instr) : Option Refusal :=
  match i with
  | .jmp _ => if c.hasJmp then none else some .jmpNotImplemented
  | .ldi _ _ | .add _ _ | .adc _ _ | .eor _ _ | .out _ _ | .sen | .sez =>
      if c.admitSupplementary then none else some .supplementaryNotAdmitted
  | .clr _ | .inc _ | .dec _ | .com _ | .neg _ | .rol _ | .ror _ | .lsl _ | .lsr _ | .asr _
  | .swap _ | .brne _ | .brlo _ | .brsh _ | .breq _ | .brmi _ | .brpl _ | .brvc _ | .brvs _
  | .rjmp _ | .ijmp => none

/-- The instruction at the program counter (R31, R51). The second word of JMP stands at `pc + 1`,
which is outside program memory when JMP stands in the last word (R33). -/
def State.fetch (s : State) : Answer Instr :=
  (s.progRead s.pc.toNat).andThen fun w1 =>
    match decodeFirst w1 with
    | .unlisted name => .refused (.encodingNotSpecified name)
    | .whole i =>
      match deviceRefuses s.cfg i with
      | some r => .refused r
      | none => .next i
    | .jmpFirst hi =>
      match deviceRefuses s.cfg (.jmp (jmpAddress hi 0)) with
      | some r => .refused r
      | none => (s.progRead (s.pc.toNat + 1)).andThen fun w2 => .next (.jmp (jmpAddress hi w2))

end Sys2Proof.Machine
end

