-- ==== Sys2Proof/Machine/Step.lean ====
section
/-! DEFINITION. One step: fetch the instruction at the program counter and run it. Every effect of the
step is complete before the next fetch (20_memory.md R39, R41). -/

namespace Sys2Proof.Machine

/-- One step of the machine. -/
def step (s : State) : Host.Outcome State Fault Refusal :=
  s.fetch.andThen fun i => exec i s

/-- The state with an instruction, its bits numbered as spec/opcode_table.json numbers them, stored at
the program counter. It stands for the load of a program, which is a launch argument (R223,
notes/assumptions/3.md). -/
def State.withFetchWord (s : State) (nbits w : Nat) : State :=
  { s with prog := Memory.writeBytes s.prog (2 * s.pc.toNat) (tableBytes nbits w) }

end Sys2Proof.Machine
end

