-- ==== Sys2Proof/Machine/Assembler.lean ====
section
/-! DEFINITION. The assembler syntax of the source (30_encoding.md R65 to R69): one line of text at a
time, labels, numbers, register names, the name PORTB, and the resolution of labels to displacements.
Text is a list of characters. The machine does not use this file; it says which words a listing
stands for, and so how a program of the source is loaded (R223). -/

namespace Sys2Proof.Machine

/-- A piece of source text. -/
abbrev Text := List Char

/-- One line: a label if it has one, then the mnemonic with its operands (R65). R65 gives every line a
mnemonic; here it may be absent, for a blank line, a line that is only a comment and a line that is only
a label, on which R65 is silent (DESIGN CHOICE of notes/assumptions/19.md). -/
structure AsmLine where
  label : Option Text
  mnemonic : Option Text
  operands : List Text
  deriving DecidableEq, Repr

/-- A label and the word address it names (R65). -/
abbrev Symbols := List (Text × Nat)

/-! ### Lines (R65) -/

/-- A character of an identifier: a letter, a digit or `_` (R65). -/
def isIdentifierChar (c : Char) : Bool := c.isAlphanum || c == '_'

/-- The text without the spaces around it, one or more where R65 shows at most one (DESIGN CHOICE of
notes/assumptions/19.md). -/
def trimBlanks (t : Text) : Text :=
  ((t.dropWhile (· == ' ')).reverse.dropWhile (· == ' ')).reverse

/-- The text before the comment, which starts at `;` (R65). -/
def withoutComment (t : Text) : Text := t.takeWhile (· != ';')

/-- The pieces between the commas (R65). -/
def splitAtCommas : Text → List Text
  | [] => [[]]
  | c :: cs =>
    match splitAtCommas cs with
    | [] => [[c]]
    | p :: ps => if c == ',' then [] :: p :: ps else (c :: p) :: ps

/-- A mnemonic and its operands (R65). Where nothing stands there, the line has no mnemonic and is
accepted (DESIGN CHOICE of notes/assumptions/19.md). -/
def parseBody (label : Option Text) (t : Text) : AsmLine :=
  match trimBlanks t with
  | [] => { label := label, mnemonic := none, operands := [] }
  | c :: cs =>
    let m := (c :: cs).takeWhile (· != ' ')
    match trimBlanks ((c :: cs).drop m.length) with
    | [] => { label := label, mnemonic := some m, operands := [] }
    | o :: os =>
      { label := label, mnemonic := some m, operands := (splitAtCommas (o :: os)).map trimBlanks }

/-- `[label:] MNEMONIC [operand[, operand]] [;comment]` (R65). -/
def parseLine (t : Text) : AsmLine :=
  let line := trimBlanks (withoutComment t)
  let name := line.takeWhile isIdentifierChar
  match name, line.drop name.length with
  | c :: cs, ':' :: rest => parseBody (some (c :: cs)) rest
  | _, _ => parseBody none line

/-! ### Operands (R66) -/

/-- The digits of the bases of R66, each standing at its value. -/
def digitChars : Text :=
  ['0', '1', '2', '3', '4', '5', '6', '7', '8', '9'] ++ ['A', 'B', 'C', 'D', 'E', 'F']

/-- The value of a digit of a base, its letter in either case (DESIGN CHOICE of
notes/assumptions/11.md). -/
def digitIn (base : Nat) (c : Char) : Option Nat := (digitChars.take base).idxOf? c.toUpper

/-- A number in a base: one digit or more, the first the most significant (R66). Leading zeros count
for nothing (DESIGN CHOICE of notes/assumptions/19.md). -/
def numberIn (base : Nat) (t : Text) : Option Nat :=
  if t.isEmpty then none
  else t.foldlM (fun n c => (digitIn base c).map (base * n + ·)) 0

/-- A constant: decimal, or hexadecimal with the prefix `0x` or `$` (R66). -/
def constantOf : Text → Option Nat
  | '0' :: 'x' :: cs => numberIn 16 cs
  | '$' :: cs => numberIn 16 cs
  | cs => numberIn 10 cs

/-- A constant below a bound. -/
def constantBelow (bound : Nat) (t : Text) : Option Nat :=
  match constantOf t with
  | some n => if n < bound then some n else none
  | none => none

/-- A register: `R` and its decimal number, `R0` to `R31` (R66). -/
def registerOf : Text → Option Reg
  | 'R' :: cs =>
    match numberIn 10 cs with
    | some n => if h : n < 32 then some ⟨n, h⟩ else none
    | none => none
  | _ => none

/-- An I/O register: the name PORTB, which stands for `PORTB_ADDR`, or an address (R66). -/
def ioRegisterOf (cfg : Config) (t : Text) : Option IoAddr :=
  if t = ['P', 'O', 'R', 'T', 'B'] then some cfg.portbAddr
  else
    match constantOf t with
    | some n => if h : n < 64 then some ⟨n, h⟩ else none
    | none => none

/-- The displacement from a branch or RJMP at word address `a` to word address `t` (R67). -/
def displacement (a t : Nat) : Int := (t : Int) - ((a : Int) + 1)

/-- The operand of a branch or RJMP at word address `a`: a label (R67), or the displacement itself,
as the Syntax lines write it (R66; DESIGN CHOICE of notes/assumptions/11.md). An operand that is
spelled as a label is the label (DESIGN CHOICE of notes/assumptions/19.md). -/
def relativeOperand (symbols : Symbols) (a : Nat) (t : Text) : Option Int :=
  match symbols.lookup t with
  | some target => some (displacement a target)
  | none => (constantOf t).map (fun n => (n : Int))

/-- The operand of JMP: a label, for which `k = t`, or the address itself (R66, R67). -/
def absoluteOperand (symbols : Symbols) (t : Text) : Option Pc :=
  match symbols.lookup t with
  | some target => if target < 4194304 then some (BitVec.ofNat 22 target) else none
  | none => (constantBelow 4194304 t).map (BitVec.ofNat 22)

/-! ### Instructions (R66, R68, R69) -/

/-- The mnemonics that take one register. -/
def oneRegisterMnemonics : List (Text × (Reg → Instr)) :=
  [(['C', 'L', 'R'], .clr), (['I', 'N', 'C'], .inc), (['D', 'E', 'C'], .dec),
   (['C', 'O', 'M'], .com), (['N', 'E', 'G'], .neg), (['R', 'O', 'L'], .rol),
   (['R', 'O', 'R'], .ror), (['L', 'S', 'L'], .lsl), (['L', 'S', 'R'], .lsr),
   (['A', 'S', 'R'], .asr), (['S', 'W', 'A', 'P'], .swap)]

/-- The mnemonics that take a displacement. -/
def relativeMnemonics : List (Text × (Int → Instr)) :=
  [(['B', 'R', 'N', 'E'], .brne), (['B', 'R', 'L', 'O'], .brlo), (['B', 'R', 'S', 'H'], .brsh),
   (['B', 'R', 'E', 'Q'], .breq), (['B', 'R', 'M', 'I'], .brmi), (['B', 'R', 'P', 'L'], .brpl),
   (['B', 'R', 'V', 'C'], .brvc), (['B', 'R', 'V', 'S'], .brvs), (['R', 'J', 'M', 'P'], .rjmp)]

/-- The mnemonics that take two registers. With equal registers they are the words of CLR, LSL and
ROL (R68). -/
def twoRegisterMnemonics : List (Text × (Reg → Reg → Instr)) :=
  [(['A', 'D', 'D'], .add), (['A', 'D', 'C'], .adc), (['E', 'O', 'R'], .eor)]

/-- The mnemonics that take no operand. -/
def plainMnemonics : List (Text × Instr) :=
  [(['I', 'J', 'M', 'P'], .ijmp), (['S', 'E', 'N'], .sen), (['S', 'E', 'Z'], .sez)]

/-- The instruction of a mnemonic with one operand, at word address `a`. -/
def oneOperandInstr (symbols : Symbols) (a : Nat) (m x : Text) : Option Instr :=
  match oneRegisterMnemonics.lookup m, relativeMnemonics.lookup m with
  | some mk, _ => (registerOf x).map mk
  | none, some mk => (relativeOperand symbols a x).map mk
  | none, none =>
    if m = ['J', 'M', 'P'] then (absoluteOperand symbols x).map .jmp else none

/-- The instruction of a mnemonic with two operands, the destination first (R65). -/
def twoOperandInstr (cfg : Config) (m x y : Text) : Option Instr :=
  match twoRegisterMnemonics.lookup m with
  | some mk =>
    match registerOf x, registerOf y with
    | some d, some r => some (mk d r)
    | _, _ => none
  | none =>
    if m = ['L', 'D', 'I'] then
      match registerOf x, constantBelow 256 y with
      | some d, some K => some (.ldi d (BitVec.ofNat 8 K))
      | _, _ => none
    else if m = ['O', 'U', 'T'] then
      match ioRegisterOf cfg x, registerOf y with
      | some A, some r => some (.out A r)
      | _, _ => none
    else none

/-- The words of a line at word address `a`: none for a line that the assembler must reject, an
operand out of its range among them (R64, R67, R161). A line with no mnemonic is accepted and has no
words, which R65 leaves open (DESIGN CHOICE of notes/assumptions/19.md). -/
def assembleLine (cfg : Config) (symbols : Symbols) (a : Nat) (line : AsmLine) :
    Option (List Word) :=
  match line.mnemonic with
  | none => some []
  | some m =>
    let instr :=
      match line.operands with
      | [] => plainMnemonics.lookup m
      | [x] => oneOperandInstr symbols a m x
      | [x, y] => twoOperandInstr cfg m x y
      | _ => none
    match instr with
    | some i => if i.operandsInRange then some (encode i) else none
    | none => none

/-! ### Listings (R67) -/

/-- How many words a line takes: two for JMP, one for any other instruction (R50). A line with no
mnemonic takes none, so that its label names the next word (DESIGN CHOICE of
notes/assumptions/19.md). -/
def lineWords (line : AsmLine) : Nat :=
  match line.mnemonic with
  | none => 0
  | some m => if m = ['J', 'M', 'P'] then 2 else 1

/-- The word address of every label, for lines that begin at word address `a`: the address of the
instruction on its line (R65), or of the next word where its line has none (DESIGN CHOICE of
notes/assumptions/19.md). -/
def symbolsOf : Nat → List AsmLine → Symbols
  | _, [] => []
  | a, line :: lines =>
    match line.label with
    | some l => (l, a) :: symbolsOf (a + lineWords line) lines
    | none => symbolsOf (a + lineWords line) lines

/-- The words of lines that begin at word address `a`. -/
def assembleFrom (cfg : Config) (symbols : Symbols) : Nat → List AsmLine → Option (List Word)
  | _, [] => some []
  | a, line :: lines =>
    match assembleLine cfg symbols a line,
        assembleFrom cfg symbols (a + lineWords line) lines with
    | some ws, some rest => some (ws ++ rest)
    | _, _ => none

/-- The words of a listing placed from word address `base`, or none where the assembler rejects it. -/
def assemble (cfg : Config) (base : Nat) (listing : List Text) : Option (List Word) :=
  let lines := listing.map parseLine
  assembleFrom cfg (symbolsOf base lines) base lines

end Sys2Proof.Machine
end

