-- ==== Sys2Proof/Machine/Effects.lean ====
section
/-! DEFINITION. The tables of the spec over whole instructions: which register and which flags an
instruction writes (10_state.md R11, R19; 40_single_register_alu.md R113), its cycles
(70_reset_and_hazards.md R230), and the flag rows of the instructions the source only names
(43_supplementary_instructions.md R168). The meanings do not use these tables: statements hold the
meanings against them. -/

namespace Sys2Proof.Machine

/-- The general register an instruction writes (R11). -/
def destination : Instr → Option Reg
  | .clr d | .inc d | .dec d | .com d | .neg d | .rol d | .ror d | .lsl d | .lsr d | .asr d
  | .swap d | .ldi d _ | .add d _ | .adc d _ | .eor d _ => some d
  | .brne _ | .brlo _ | .brsh _ | .breq _ | .brmi _ | .brpl _ | .brvc _ | .brvs _
  | .jmp _ | .rjmp _ | .ijmp | .out _ _ | .sen | .sez => none

/-- The flags an instruction writes (R19, R113). -/
def flagsWritten : Instr → List Flag
  | .clr _ | .inc _ | .dec _ | .eor _ _ => [.S, .V, .N, .Z]
  | .com _ | .ror _ | .lsr _ | .asr _ => [.S, .V, .N, .Z, .C]
  | .neg _ | .rol _ | .lsl _ | .add _ _ | .adc _ _ => [.H, .S, .V, .N, .Z, .C]
  | .sen => [.N]
  | .sez => [.Z]
  | .swap _ | .brne _ | .brlo _ | .brsh _ | .breq _ | .brmi _ | .brpl _ | .brvc _ | .brvs _
  | .jmp _ | .rjmp _ | .ijmp | .ldi _ _ | .out _ _ => []

/-- The I/O address an instruction writes (R35, R165). -/
def ioDestination : Instr → Option IoAddr
  | .out A _ => some A
  | .clr _ | .inc _ | .dec _ | .com _ | .neg _ | .rol _ | .ror _ | .lsl _ | .lsr _ | .asr _
  | .swap _ | .brne _ | .brlo _ | .brsh _ | .breq _ | .brmi _ | .brpl _ | .brvc _ | .brvs _
  | .jmp _ | .rjmp _ | .ijmp | .ldi _ _ | .add _ _ | .adc _ _ | .eor _ _ | .sen | .sez => none

/-- The flag a conditional branch tests, and the value on which it branches (R131). -/
def branchCondition : Instr → Option (Flag × Bool)
  | .brlo _ => some (.C, true)
  | .brsh _ => some (.C, false)
  | .breq _ => some (.Z, true)
  | .brne _ => some (.Z, false)
  | .brmi _ => some (.N, true)
  | .brpl _ => some (.N, false)
  | .brvs _ => some (.V, true)
  | .brvc _ => some (.V, false)
  | .clr _ | .inc _ | .dec _ | .com _ | .neg _ | .rol _ | .ror _ | .lsl _ | .lsr _ | .asr _
  | .swap _ | .jmp _ | .rjmp _ | .ijmp | .ldi _ _ | .add _ _ | .adc _ _ | .eor _ _ | .out _ _
  | .sen | .sez => none

/-- The cycles of an instruction started with these flags (R230): a conditional branch takes 2 where
its condition is true and 1 where it is false, JMP 3, RJMP and IJMP 2, any other 1. -/
def cyclesOf (f : Sreg) : Instr → Nat
  | .jmp _ => 3
  | .rjmp _ | .ijmp => 2
  | .brlo _ => if f.C then 2 else 1
  | .brsh _ => if f.C then 1 else 2
  | .breq _ => if f.Z then 2 else 1
  | .brne _ => if f.Z then 1 else 2
  | .brmi _ => if f.N then 2 else 1
  | .brpl _ => if f.N then 1 else 2
  | .brvs _ => if f.V then 2 else 1
  | .brvc _ => if f.V then 1 else 2
  | .clr _ | .inc _ | .dec _ | .com _ | .neg _ | .rol _ | .ror _ | .lsl _ | .lsr _ | .asr _
  | .swap _ | .ldi _ _ | .add _ _ | .adc _ _ | .eor _ _ | .out _ _ | .sen | .sez => 1

/-- What the slide "Instructions that affect Flag Bits" says of an instruction the source only names
(R168): the flags in its row, and none for CALL, which has no row. -/
def NamedOnly.flagRow : NamedOnly → List Flag
  | .adiw => [.C, .Z, .N, .V, .S]
  | .and | .andi | .cbr | .or | .ori | .tst => [.Z, .N, .V, .S]
  | .fmul => [.C, .Z]
  | .sub | .subi => [.C, .Z, .N, .V, .S, .H]
  | .call => []

end Sys2Proof.Machine
end

