-- ==== Sys2Proof/Machine/Run.lean ====
section
/-! DEFINITION. A run and its end (70_reset_and_hazards.md R226, decision D14). The end is a convention
of the run and not of the core: `step` does not look at it (notes/assumptions/15.md). -/

namespace Sys2Proof.Machine

/-- The program counter is `END_PC`. -/
def State.atEndPc (s : State) : Bool := decide (s.cfg.endPc = some s.pc)

/-- The word at the program counter is 0xCFFF, the self-loop `RJMP -1`, in which a program may end
instead (R226, R152). Any other jump to itself ends no run (notes/assumptions/15.md). -/
def State.atSelfLoop (s : State) : Bool :=
  match s.progRead s.pc.toNat with
  | .next w => decide (w = 0xCFFF)
  | .fault _ | .refused _ => false

/-- The run is over at this step boundary, and the state is its result. -/
def State.runOver (s : State) : Bool := s.atEndPc || s.atSelfLoop

/-- How a run of some steps came out. -/
inductive RunResult where
  /-- The run reached `END_PC` or the self-loop; the state there is the result, its `ioTrace` the
  output (R226). -/
  | over (s : State)
  /-- The steps are used up and the run is not over. -/
  | running (s : State)
  | faulted (r : Fault)
  | refused (r : Refusal)
  deriving Repr

/-- At most `n` steps, ending at the first boundary where the run is over: the word at `END_PC` is
never fetched, and the self-loop is not run (R226). -/
def runToEnd : Nat → State → RunResult
  | 0, s => if s.runOver then .over s else .running s
  | n + 1, s =>
    if s.runOver then .over s
    else
      match step s with
      | .next t => runToEnd n t
      | .fault r => .faulted r
      | .refused r => .refused r

end Sys2Proof.Machine
end

