-- ==== Sys2Proof/Safety.lean ====
section
/-! DEFINITION. What statements about the machine are made of: the frame of an instruction, the
invariant of a state, and the boundaries where a run ends (70_reset_and_hazards.md R226). -/

namespace Sys2Proof.Machine

/-! ### Frames (00_scope.md R8) -/

/-- Every general register outside the list keeps its value. -/
def KeepsRegsExcept (written : List Reg) (s t : State) : Prop :=
  ∀ j : Reg, j ∉ written → t.readReg j = s.readReg j

/-- Every flag outside the list keeps its value. -/
def KeepsFlagsExcept (written : List Flag) (s t : State) : Prop :=
  ∀ f : Flag, f ∉ written → t.sreg.get f = s.sreg.get f

/-- Every byte of program memory, read one byte at a time, and the device are as before. -/
def KeepsProgram (s t : State) : Prop :=
  (∀ a : Nat, Memory.read t.prog a = Memory.read s.prog a) ∧ t.prog = s.prog ∧ t.cfg = s.cfg

/-- Every I/O register is as before, and nothing is written to the I/O space. -/
def KeepsIo (s t : State) : Prop :=
  (∀ A : IoAddr, t.readIo A = s.readIo A) ∧ t.ioTrace = s.ioTrace

/-- The sequential next PC below the wrap: `pc <- pc + 1`. -/
def GoesToNextWord (s t : State) : Prop :=
  s.pc.toNat + 1 < s.cfg.pcWidth.words → t.pc.toNat = s.pc.toNat + 1

/-- The frame of a one-word instruction that does not jump (R8, R100, R160): the general registers and
the flags outside two lists, program memory, the device and the I/O space are as before, and the next
word follows. -/
structure OneWordFrame (regsWritten : List Reg) (flagsWritten : List Flag) (s t : State) : Prop where
  regs : KeepsRegsExcept regsWritten s t
  flags : KeepsFlagsExcept flagsWritten s t
  program : KeepsProgram s t
  io : KeepsIo s t
  next : GoesToNextWord s t

/-- The frame of a branch or jump (R130, R150): nothing but the program counter changes (and the
ghost count of cycles). -/
structure JumpFrame (s t : State) : Prop where
  regs : KeepsRegsExcept [] s t
  flags : KeepsFlagsExcept [] s t
  program : KeepsProgram s t
  io : KeepsIo s t

/-- The three flags every result sets alike (R100), read as numbers: N where the result is 0x80 or
more, Z where it is 0x00, S the exclusive OR of N and V. -/
def ResultFlags (R : Byte) (f : Sreg) : Prop :=
  (f.N = true ↔ 128 ≤ R.toNat) ∧ (f.Z = true ↔ R.toNat = 0) ∧ f.S = (f.N ^^ f.V)

/-- A conditional branch as R131 gives it: its word for every displacement, the base word plus 8 for
each step of `k` modulo 128; where the flag has the wanted value the next PC is `pc + k + 1`, else
`pc + 1`; and nothing else changes. -/
def BranchRule (mk : Int → Instr) (base : Nat) (flag : Flag) (wanted : Bool) : Prop :=
  (∀ k, inBranchRange k = true →
    decode [BitVec.ofNat 16 (base + 8 * (k % 128).toNat)] = .ok (mk k, [])) ∧
  ∀ (k : Int) (s : State), ∃ t, exec (mk k) s = .next t ∧ JumpFrame s t ∧
    (s.sreg.get flag = wanted →
      (t.pc.toNat : Int) = ((s.pc.toNat : Int) + k + 1) % (s.cfg.pcWidth.words : Int)) ∧
    (s.sreg.get flag ≠ wanted → t.pc.toNat = (s.pc.toNat + 1) % s.cfg.pcWidth.words)

/-- Two branches on one flag, one for each value of it (R134 to R139): whatever the state, exactly
one of them is taken, the other goes on to the next word, and the two together cost 3 cycles. -/
def ComplementRule (whenSet whenClear : Int → Instr) : Prop :=
  ∀ (k : Int) (s : State), ∃ t u, exec (whenSet k) s = .next t ∧ exec (whenClear k) s = .next u ∧
    ((t.pc = s.relativeTarget k ∧ u.pc = s.sequentialTarget) ∨
      (t.pc = s.sequentialTarget ∧ u.pc = s.relativeTarget k)) ∧
    t.cycles + u.cycles = 2 * s.cycles + 3

/-- A 16-bit value in two registers. -/
def State.pairValue (s : State) (hi lo : Reg) : Nat :=
  256 * (s.readReg hi).toNat + (s.readReg lo).toNat

/-- The same value read as a two's-complement number. -/
def State.pairSigned (s : State) (hi lo : Reg) : Int :=
  256 * (s.readReg hi).toInt + (s.readReg lo).toNat

/-! ### Program memory seen from the program counter -/

/-- The words stand in program memory from word address `a` on. -/
def WordsAt (s : State) : Nat → List Word → Prop
  | _, [] => True
  | a, w :: ws => s.progRead a = .next w ∧ WordsAt s (a + 1) ws

/-! ### The invariant -/

/-- The contents of an I/O register are the last value written to it, once one is written (R35). -/
def IoMatchesTrace (s : State) : Prop :=
  ∀ (A : IoAddr) (v : Byte), lastWrite A s.ioTrace = some v → s.readIo A = v

/-- The invariant of the machine: a legal device (R5), program memory in canonical form, a program
counter that fits its width (R14), every I/O write to a plain address (R36), and I/O registers that
hold what was last written (R35). -/
structure Inv (s : State) : Prop where
  device : s.cfg.wf
  program : Memory.wf s.prog
  pc : s.pc.toNat < s.cfg.pcWidth.words
  plain : ∀ e ∈ s.ioTrace, e.1 ∈ s.cfg.ioPlain
  io : IoMatchesTrace s

/-- The premise every claim about interrupts rests on (R202): I is 0, and so no interrupt is taken. -/
def NoInterruptPremise (s : State) : Prop := s.sreg.I = false

/-! ### Runs (R226) -/

/-- A step boundary at which a run ends (R226): the program counter is `END_PC`, or the self-loop
`RJMP -1`, the word 0xCFFF, stands at it. -/
def EndBoundary (s : State) : Prop :=
  s.cfg.endPc = some s.pc ∨ s.progRead s.pc.toNat = .next 0xCFFF

/-- The state `k` steps on from `s` is at a boundary where `P` holds, and no earlier boundary was. -/
def FirstReaches (P : State → Prop) (s : State) (k : Nat) (t : State) : Prop :=
  Sys2Proof.core.run k s = .next t ∧ P t ∧
    ∀ (j : Nat) (u : State), j < k → Sys2Proof.core.run j s = .next u → ¬ P u

/-- A state that some number of steps reaches. -/
def Reaches (s t : State) : Prop := ∃ n, Sys2Proof.core.run n s = .next t

end Sys2Proof.Machine
end

