-- ==== Sys2Proof/Certificates/Slice0/Obligations.lean ====
section
/-! DEFINITION. The statements for the provers. Each docstring says which rule of spec/ it formalises
and what in it is the spec's decision or general knowledge, or the model's choice. -/

open Sys2Proof Sys2Proof.Machine

/-! ### Encoding -/

/-- Decoding undoes encoding, for every well-formed instruction with every operand, whatever words
follow (R52, R54, R57 to R60). -/
def Obligations.DecodeUndoesEncode : Prop :=
  ∀ (i : Instr) (rest : List Word), i.WellFormed → decode (encode i ++ rest) = .ok (i, rest)

/-- Encoding undoes decoding: a list of words that decodes to an instruction begins with that
instruction's encoding, and the instruction is well formed. So no two instructions share a word, and
no bit of a decoded word is ignored (R54, R60). -/
def Obligations.EncodeUndoesDecode : Prop :=
  ∀ (ws : List Word) (i : Instr) (rest : List Word), decode ws = .ok (i, rest) →
    i.WellFormed ∧ encode i ++ rest = ws

/-- Words the spec writes out decode to the instructions they stand for: LSL R24 as R108 and
95_test_vectors.md section 3.2 give it, the other eleven as 95_test_vectors.md section 2.16 does. The
words of LSL, ADD, LDI, OUT and SEZ rest on general knowledge, as the spec marks them
(notes/assumptions/8.md). The bit order of the JMP address and the two's complement of the BREQ, BRVC
and RJMP displacements are decisions D16 and D15 of the spec (notes/assumptions/10.md). -/
def Obligations.DecodeReadsTheVectorWords : Prop :=
  decode [0x95F0] = .ok (.com 31, []) ∧ decode [0x9411] = .ok (.neg 1, []) ∧
  decode [0x0F88] = .ok (.lsl 24, []) ∧ decode [0x0F01] = .ok (.add 16 17, []) ∧
  decode [0xF201] = .ok (.breq (-64), []) ∧ decode [0xF5FB] = .ok (.brvc 63, []) ∧
  decode [0xC800] = .ok (.rjmp (-2048), []) ∧ decode [0x9409] = .ok (.ijmp, []) ∧
  decode [0x955C, 0xBCDE] = .ok (.jmp 0x2ABCDE, []) ∧ decode [0xE545] = .ok (.ldi 20 0x55, []) ∧
  decode [0xBB08] = .ok (.out 0x18 16, []) ∧ decode [0x9418] = .ok (.sez, [])

/-- The opcode map by the leading bits of the word (R61), whose entries for LDI and OUT rest on general
knowledge as the spec marks them: outside the listed spaces nothing is specified, every `1100` word is
RJMP and every `1110` word is LDI. -/
def Obligations.OpcodeMapByLeadingBits : Prop :=
  ∀ w : Word,
    ((w.toNat < 0x0C00 ∨ (0x1000 ≤ w.toNat ∧ w.toNat < 0x1C00) ∨
        (0x2000 ≤ w.toNat ∧ w.toNat < 0x2400) ∨ (0x2800 ≤ w.toNat ∧ w.toNat < 0x9400) ∨
        (0x9600 ≤ w.toNat ∧ w.toNat < 0xB800) ∨ (0xD000 ≤ w.toNat ∧ w.toNat < 0xE000) ∨
        0xF800 ≤ w.toNat ∨ (0xF000 ≤ w.toNat ∧ w.toNat / 4 % 2 = 1)) →
      ∃ name, decodeFirst w = .unlisted name) ∧
    (0xC000 ≤ w.toNat ∧ w.toNat < 0xD000 → ∃ k, decodeFirst w = .whole (.rjmp k)) ∧
    (0xE000 ≤ w.toNat ∧ w.toNat < 0xF000 → ∃ d K, decodeFirst w = .whole (.ldi d K))

/-! ### Fetching and stepping -/

/-- A step runs the decoded instruction (R31, R41): where the words at the program counter decode to an
instruction that the device has, the step is `exec` of that instruction at that state. Moving the
program counter on is part of `exec`. -/
def Obligations.StepRunsTheDecodedInstruction : Prop :=
  ∀ (s : State) (ws : List Word) (i : Instr), decode ws = .ok (i, []) →
    WordsAt s s.pc.toNat ws → deviceRefuses s.cfg i = none → step s = exec i s

/-- An instruction placed at the program counter is what the next step runs (R31, R34, R223): the two
bytes of a word in memory read back as the word, and its bits reach the decoder in their places. -/
def Obligations.StepRunsThePlacedInstruction : Prop :=
  ∀ (s : State) (nbits w : Nat) (i : Instr), decodeTableWord nbits w = some i →
    s.pc.toNat + i.words ≤ s.cfg.flashWords → deviceRefuses s.cfg i = none →
    step (s.withFetchWord nbits w) = exec i (s.withFetchWord nbits w)

/-- A loaded program is read back word by word (R31, R223, byte layout of R34), the words that were
loaded and no others being changed. -/
def Obligations.LoadedProgramReadsBack : Prop :=
  ∀ (s : State) (base a : Nat) (ws : List Word) (w : Word), ws[a]? = some w →
    base + a < s.cfg.flashWords →
    { s with prog := Memory.loadWords s.prog base ws }.progRead (base + a) = .next w ∧
    ∀ b : Nat, (b < 2 * base ∨ 2 * (base + ws.length) ≤ b) →
      Memory.read (Memory.loadWords s.prog base ws) b = Memory.read s.prog b

/-- Where a step stops before any instruction runs, in the order of R203 (the refusals are decisions
D1, D2, D3 and D6 of the spec): a fetch outside program memory (R33), an encoding that is not specified
(R63), a supplementary instruction that the device does not admit (R63), JMP on a device without it
(R63), and the second word of JMP outside program memory (R33). -/
def Obligations.StepRefusesInTheOrderOfTheChecks : Prop :=
  ∀ s : State,
    (s.cfg.flashWords ≤ s.pc.toNat → step s = .refused .fetchOutsideProgramMemory) ∧
    (∀ w name, s.progRead s.pc.toNat = .next w → decodeFirst w = .unlisted name →
      step s = .refused (.encodingNotSpecified name)) ∧
    (∀ w i, s.progRead s.pc.toNat = .next w → decodeFirst w = .whole i →
      i.isSupplementary = true → s.cfg.admitSupplementary = false →
      step s = .refused .supplementaryNotAdmitted) ∧
    (∀ w hi, s.progRead s.pc.toNat = .next w → decodeFirst w = .jmpFirst hi →
      s.cfg.hasJmp = false → step s = .refused .jmpNotImplemented) ∧
    (∀ w hi, s.progRead s.pc.toNat = .next w → decodeFirst w = .jmpFirst hi →
      s.cfg.hasJmp = true → s.cfg.flashWords ≤ s.pc.toNat + 1 →
      step s = .refused .fetchOutsideProgramMemory)

/-- The only fault of a step is the model's own (notes/assumptions/4.md): a word inside program memory
that holds no loaded word. -/
def Obligations.StepFaultsOnlyOnAnUnloadedWord : Prop :=
  ∀ (s : State) (r : Fault), step s = .fault r →
    r = .programWordNotLoaded ∧ ∃ a, (a = s.pc.toNat ∨ a = s.pc.toNat + 1) ∧
      a < s.cfg.flashWords ∧
      (Memory.read s.prog (2 * a) = none ∨ Memory.read s.prog (2 * a + 1) = none)

/-! ### Reset and invariants -/

/-- The initial state of a run (R220, R25), on every legal device with every program in canonical form
and whatever the registers and the I/O space hold: the program counter is `RESET_PC`, SREG read as a
byte is `SREG_RESET`, nothing is written to the I/O space yet, and the invariant holds; it holds of the
model's own `State.reset` too (its register values are notes/assumptions/2.md). -/
def Obligations.InitialStateHoldsInvariant : Prop :=
  (∀ (cfg : Config) (regs : Vector Byte 32) (io : Vector Byte 64) (prog : Memory),
    cfg.wf → Memory.wf prog →
    (State.initial cfg regs io prog).pc = cfg.resetPc ∧
    (State.initial cfg regs io prog).sreg.toByte = cfg.sregReset ∧
    (State.initial cfg regs io prog).ioTrace = [] ∧
    Inv (State.initial cfg regs io prog)) ∧
  Inv State.reset

/-- Every step keeps the invariant: a legal device, program memory in canonical form, a program counter
that fits its width (R14, R17), I/O writes to plain addresses only (R36), and I/O registers that hold
what was last written to them (R35). -/
def Obligations.StepKeepsInvariant : Prop :=
  ∀ s t : State, Inv s → step s = .next t → Inv t

/-- Over any number of steps, from any state, program memory and the device do not change (R32, R44),
and neither do the flags I and T; so the premise that I is 0 is kept (R202). -/
def Obligations.RunsKeepProgramDeviceAndInterruptFlag : Prop :=
  ∀ s t : State, Reaches s t →
    KeepsProgram s t ∧ t.sreg.I = s.sreg.I ∧ t.sreg.T = s.sreg.T ∧
    (NoInterruptPremise s → NoInterruptPremise t)

/-- Over any number of steps the output trace is only extended: no I/O write event is dropped, merged or
reordered (R41), each step adds at most one, and the ghost count of cycles grows with every step (R230). -/
def Obligations.RunsOnlyExtendTheOutputTrace : Prop :=
  ∀ (n : Nat) (s t : State), Sys2Proof.core.run n s = .next t →
    s.ioTrace <+: t.ioTrace ∧ t.ioTrace.length ≤ s.ioTrace.length + n ∧
    s.cycles + n ≤ t.cycles ∧ t.cycles ≤ s.cycles + 3 * n

/-! ### All instructions at once -/

/-- The frame of every instruction, by the tables of R11 and R19: no general register but the
destination, no flag outside the instruction's row, no byte of program memory, no part of the device and
no I/O register but the one OUT names is changed, and only OUT extends the output trace. -/
def Obligations.EveryInstructionKeepsItsFrame : Prop :=
  ∀ (i : Instr) (s t : State), exec i s = .next t →
    KeepsRegsExcept (destination i).toList s t ∧ KeepsFlagsExcept (flagsWritten i) s t ∧
    KeepsProgram s t ∧
    (∀ A : IoAddr, ioDestination i ≠ some A → t.readIo A = s.readIo A) ∧
    (ioDestination i = none → t.ioTrace = s.ioTrace)

/-- Every instruction completes, in every state: JMP where its target fits the program counter, OUT
where its address is plain, and the other 27 with no condition (R8, R151, R165). -/
def Obligations.EveryInstructionCompletes : Prop :=
  ∀ (i : Instr) (s : State),
    (∀ k, i = .jmp k → k.toNat < s.cfg.pcWidth.words) →
    (∀ A r, i = .out A r → A ∈ s.cfg.ioPlain) →
    ∃ t, exec i s = .next t

/-- No instruction raises an exception or faults (R200), and the only two that are refused are JMP to a
target wider than the program counter and OUT to an address that is not plain (decisions D3 and D13). -/
def Obligations.InstructionsStopOnlyAtTheNamedRefusals : Prop :=
  ∀ (i : Instr) (s : State),
    (∀ r, exec i s ≠ .fault r) ∧
    (∀ r, exec i s = .refused r →
      (∃ k, i = .jmp k ∧ s.cfg.pcWidth.words ≤ k.toNat ∧ r = .jmpTargetWiderThanPc) ∨
      (∃ A q, i = .out A q ∧ A ∉ s.cfg.ioPlain ∧ r = .outAddressNotPlain))

/-- The next PC of every instruction that is neither a branch nor a jump (R16), with the wrap modulo
`2^PC_BITS` that is decision D2 of the spec (R17). -/
def Obligations.StraightInstructionsGoToTheNextWord : Prop :=
  ∀ (i : Instr) (s t : State), exec i s = .next t → branchCondition i = none →
    (∀ k, i ≠ .jmp k) → (∀ k, i ≠ .rjmp k) → i ≠ .ijmp →
    t.pc.toNat = (s.pc.toNat + 1) % s.cfg.pcWidth.words

/-- The cycles of every instruction by the table of R230 (for the supplementary instructions from
general knowledge, as the spec marks them): a branch costs 2 where taken and 1 where not. -/
def Obligations.EveryInstructionCostsItsCycles : Prop :=
  ∀ (i : Instr) (s t : State), exec i s = .next t → t.cycles = s.cycles + cyclesOf s.sreg i

/-- After any core instruction that writes N, V or S, the stored S is N ⊕ V (R20, which the spec derives
from R19). -/
def Obligations.SignFlagIsNXorVAfterCoreInstructions : Prop :=
  ∀ (i : Instr) (s t : State), exec i s = .next t → i.isSupplementary = false →
    (Flag.N ∈ flagsWritten i ∨ Flag.V ∈ flagsWritten i ∨ Flag.S ∈ flagsWritten i) →
    t.sreg.S = (t.sreg.N ^^ t.sreg.V)

/-- No instruction reads S, H, T or I (R19): two states that agree on C, Z, N and V, and on all but the
flags, go on to states that agree on all but the flags, on C, Z, N and V, and on every flag that the
instruction writes, S and H included; so the S and H it writes do not come from the old S, H, T or I. -/
def Obligations.SHTAndIAreNeverRead : Prop :=
  ∀ (i : Instr) (s : State) (f : Sreg) (t u : State),
    f.C = s.sreg.C → f.Z = s.sreg.Z → f.N = s.sreg.N → f.V = s.sreg.V →
    exec i s = .next t → exec i (s.writeSreg f) = .next u →
    u.regs = t.regs ∧ u.pc = t.pc ∧ u.io = t.io ∧ u.ioTrace = t.ioTrace ∧ u.cycles = t.cycles ∧
    u.sreg.C = t.sreg.C ∧ u.sreg.Z = t.sreg.Z ∧ u.sreg.N = t.sreg.N ∧ u.sreg.V = t.sreg.V ∧
    ∀ g : Flag, g ∈ flagsWritten i → u.sreg.get g = t.sreg.get g

/-! ### One-register instructions (R101 to R111) -/

/-- CLR (R101), with the word layout of R54 that the spec takes from general knowledge. -/
def Obligations.ClrClearsAndSetsZero : Prop :=
  ∀ (d : Reg) (s : State),
    decode [BitVec.ofNat 16 (0x2400 + 512 * (d.val / 16) + 16 * d.val + d.val % 16)]
      = .ok (.clr d, []) ∧
    ∃ t, exec (.clr d) s = .next t ∧ OneWordFrame [d] [.S, .V, .N, .Z] s t ∧
      (t.readReg d).toNat = 0 ∧
      t.sreg.S = false ∧ t.sreg.V = false ∧ t.sreg.N = false ∧ t.sreg.Z = true

/-- INC (R102). -/
def Obligations.IncAddsOneAndSetsFlags : Prop :=
  ∀ (d : Reg) (s : State),
    decode [BitVec.ofNat 16 (0x9403 + 16 * d.val)] = .ok (.inc d, []) ∧
    ∃ t, exec (.inc d) s = .next t ∧ OneWordFrame [d] [.S, .V, .N, .Z] s t ∧
      (t.readReg d).toNat = ((s.readReg d).toNat + 1) % 256 ∧
      ResultFlags (t.readReg d) t.sreg ∧
      (t.sreg.V = true ↔ (s.readReg d).toNat = 0x7F)

/-- DEC (R103). -/
def Obligations.DecSubtractsOneAndSetsFlags : Prop :=
  ∀ (d : Reg) (s : State),
    decode [BitVec.ofNat 16 (0x940A + 16 * d.val)] = .ok (.dec d, []) ∧
    ∃ t, exec (.dec d) s = .next t ∧ OneWordFrame [d] [.S, .V, .N, .Z] s t ∧
      (t.readReg d).toNat = ((s.readReg d).toNat + 255) % 256 ∧
      ResultFlags (t.readReg d) t.sreg ∧
      (t.sreg.V = true ↔ (s.readReg d).toNat = 0x80)

/-- COM (R104). -/
def Obligations.ComInvertsAndSetsCarry : Prop :=
  ∀ (d : Reg) (s : State),
    decode [BitVec.ofNat 16 (0x9400 + 16 * d.val)] = .ok (.com d, []) ∧
    ∃ t, exec (.com d) s = .next t ∧ OneWordFrame [d] [.S, .V, .N, .Z, .C] s t ∧
      (t.readReg d).toNat + (s.readReg d).toNat = 0xFF ∧
      ResultFlags (t.readReg d) t.sreg ∧ t.sreg.V = false ∧ t.sreg.C = true

/-- NEG (R105). The two clauses on H, that it is set where the low nibble of Rd is not 0 and that this is
`R3 + Rd3`, are a deduction: the printed formula is damaged, and the spec derives both from the page's
sentence on the borrow from bit 3 (90_conflicts.md C3, notes/assumptions/10.md). -/
def Obligations.NegSubtractsFromZero : Prop :=
  ∀ (d : Reg) (s : State),
    decode [BitVec.ofNat 16 (0x9401 + 16 * d.val)] = .ok (.neg d, []) ∧
    ∃ t, exec (.neg d) s = .next t ∧ OneWordFrame [d] [.H, .S, .V, .N, .Z, .C] s t ∧
      (t.readReg d).toNat = (256 - (s.readReg d).toNat) % 256 ∧
      ResultFlags (t.readReg d) t.sreg ∧
      (t.sreg.V = true ↔ (t.readReg d).toNat = 0x80) ∧
      (t.sreg.C = true ↔ (t.readReg d).toNat ≠ 0) ∧
      (t.sreg.H = true ↔ 0 < (s.readReg d).toNat % 16) ∧
      (t.sreg.H = true ↔ (8 ≤ (t.readReg d).toNat % 16 ∨ 8 ≤ (s.readReg d).toNat % 16))

/-- ROL (R106), with the word layout of R54 that the spec takes from general knowledge: the nine bits C
and Rd are rotated one place to the left. -/
def Obligations.RolRotatesLeftThroughCarry : Prop :=
  ∀ (d : Reg) (s : State),
    decode [BitVec.ofNat 16 (0x1C00 + 512 * (d.val / 16) + 16 * d.val + d.val % 16)]
      = .ok (.rol d, []) ∧
    ∃ t, exec (.rol d) s = .next t ∧ OneWordFrame [d] [.H, .S, .V, .N, .Z, .C] s t ∧
      256 * t.sreg.C.toNat + (t.readReg d).toNat = 2 * (s.readReg d).toNat + s.sreg.C.toNat ∧
      ResultFlags (t.readReg d) t.sreg ∧ t.sreg.V = (t.sreg.N ^^ t.sreg.C) ∧
      (t.sreg.H = true ↔ 8 ≤ (s.readReg d).toNat % 16)

/-- ROR (R107): the nine bits Rd and C are rotated one place to the right. -/
def Obligations.RorRotatesRightThroughCarry : Prop :=
  ∀ (d : Reg) (s : State),
    decode [BitVec.ofNat 16 (0x9407 + 16 * d.val)] = .ok (.ror d, []) ∧
    ∃ t, exec (.ror d) s = .next t ∧ OneWordFrame [d] [.S, .V, .N, .Z, .C] s t ∧
      2 * (t.readReg d).toNat + t.sreg.C.toNat = 256 * s.sreg.C.toNat + (s.readReg d).toNat ∧
      ResultFlags (t.readReg d) t.sreg ∧ t.sreg.V = (t.sreg.N ^^ t.sreg.C)

/-- LSL (R108), with the word layout of R54 that the spec takes from general knowledge. V says that
doubling the signed value overflows, and S is the sign of the exact signed double (R114). -/
def Obligations.LslDoubles : Prop :=
  ∀ (d : Reg) (s : State),
    decode [BitVec.ofNat 16 (0x0C00 + 512 * (d.val / 16) + 16 * d.val + d.val % 16)]
      = .ok (.lsl d, []) ∧
    ∃ t, exec (.lsl d) s = .next t ∧ OneWordFrame [d] [.H, .S, .V, .N, .Z, .C] s t ∧
      256 * t.sreg.C.toNat + (t.readReg d).toNat = 2 * (s.readReg d).toNat ∧
      ResultFlags (t.readReg d) t.sreg ∧ t.sreg.V = (t.sreg.N ^^ t.sreg.C) ∧
      (t.sreg.H = true ↔ 8 ≤ (s.readReg d).toNat % 16) ∧
      (t.sreg.V = true ↔ (2 * (s.readReg d).toInt < -128 ∨ 127 < 2 * (s.readReg d).toInt)) ∧
      (t.sreg.S = true ↔ (s.readReg d).toInt < 0)

/-- LSR (R109): the unsigned value is halved, and C is the remainder. -/
def Obligations.LsrHalvesUnsigned : Prop :=
  ∀ (d : Reg) (s : State),
    decode [BitVec.ofNat 16 (0x9406 + 16 * d.val)] = .ok (.lsr d, []) ∧
    ∃ t, exec (.lsr d) s = .next t ∧ OneWordFrame [d] [.S, .V, .N, .Z, .C] s t ∧
      2 * (t.readReg d).toNat + t.sreg.C.toNat = (s.readReg d).toNat ∧
      ResultFlags (t.readReg d) t.sreg ∧ t.sreg.N = false ∧ t.sreg.V = (t.sreg.N ^^ t.sreg.C)

/-- ASR (R110): the signed value is halved and rounded down, C is the remainder, and bit 7 is held. The
last clause, S = C, is the spec's own derivation from S = N ⊕ V and V = N ⊕ C, a corner case that R110
marks as derived. -/
def Obligations.AsrHalvesSigned : Prop :=
  ∀ (d : Reg) (s : State),
    decode [BitVec.ofNat 16 (0x9405 + 16 * d.val)] = .ok (.asr d, []) ∧
    ∃ t, exec (.asr d) s = .next t ∧ OneWordFrame [d] [.S, .V, .N, .Z, .C] s t ∧
      2 * (t.readReg d).toInt + t.sreg.C.toNat = (s.readReg d).toInt ∧
      ((t.readReg d).toNat / 128 = (s.readReg d).toNat / 128) ∧
      ResultFlags (t.readReg d) t.sreg ∧ t.sreg.V = (t.sreg.N ^^ t.sreg.C) ∧
      t.sreg.S = t.sreg.C

/-- SWAP (R111). -/
def Obligations.SwapExchangesNibbles : Prop :=
  ∀ (d : Reg) (s : State),
    decode [BitVec.ofNat 16 (0x9402 + 16 * d.val)] = .ok (.swap d, []) ∧
    ∃ t, exec (.swap d) s = .next t ∧ OneWordFrame [d] [] s t ∧
      (t.readReg d).toNat / 16 = (s.readReg d).toNat % 16 ∧
      (t.readReg d).toNat % 16 = (s.readReg d).toNat / 16

/-- SWAP twice restores the register and COM twice does too, leaving C = 1 (corner cases of R104 and
R111). -/
def Obligations.SwapAndComUndoThemselves : Prop :=
  ∀ (d : Reg) (s : State),
    (∃ t u, exec (.swap d) s = .next t ∧ exec (.swap d) t = .next u ∧ u.regs = s.regs ∧
      u.sreg = s.sreg) ∧
    (∃ t u, exec (.com d) s = .next t ∧ exec (.com d) t = .next u ∧ u.regs = s.regs ∧
      u.sreg.C = true)

/-- The pairs of R106 and R107 shift a 16-bit value in two registers by one place: LSL of the low byte
and ROL of the high byte to the left, LSR or ASR of the high byte and ROR of the low byte to the right,
the bit shifted out in C. -/
def Obligations.ShiftPairsMoveSixteenBits : Prop :=
  ∀ (hi lo : Reg) (s : State), hi ≠ lo →
    (∃ t u, exec (.lsl lo) s = .next t ∧ exec (.rol hi) t = .next u ∧
      65536 * u.sreg.C.toNat + u.pairValue hi lo = 2 * s.pairValue hi lo) ∧
    (∃ t u, exec (.lsr hi) s = .next t ∧ exec (.ror lo) t = .next u ∧
      2 * u.pairValue hi lo + u.sreg.C.toNat = s.pairValue hi lo) ∧
    (∃ t u, exec (.asr hi) s = .next t ∧ exec (.ror lo) t = .next u ∧
      2 * u.pairSigned hi lo + u.sreg.C.toNat = s.pairSigned hi lo)

/-- CLR, LSL and ROL have the effect of EOR, ADD and ADC with both operands the same register, in every
state (R62). -/
def Obligations.AliasesHaveTheEffectOfTheirParents : Prop :=
  ∀ (d : Reg) (s : State),
    exec (.eor d d) s = exec (.clr d) s ∧ exec (.add d d) s = exec (.lsl d) s ∧
    exec (.adc d d) s = exec (.rol d) s

/-! ### Branches and jumps -/

/-- The eight conditional branches (R131, R132 to R139): word, test, both next PCs and frame. The
two's-complement displacement and the wrap of the sum are decisions D15 and D2 of the spec. -/
def Obligations.ConditionalBranchesTestTheirFlag : Prop :=
  BranchRule .brne 0xF401 .Z false ∧ BranchRule .breq 0xF001 .Z true ∧
  BranchRule .brlo 0xF000 .C true ∧ BranchRule .brsh 0xF400 .C false ∧
  BranchRule .brmi 0xF002 .N true ∧ BranchRule .brpl 0xF402 .N false ∧
  BranchRule .brvs 0xF003 .V true ∧ BranchRule .brvc 0xF403 .V false

/-- Each branch has its exact complement (corner cases of R134, R135, R137, R139). -/
def Obligations.BranchPairsAreComplements : Prop :=
  ComplementRule .brlo .brsh ∧ ComplementRule .breq .brne ∧
  ComplementRule .brmi .brpl ∧ ComplementRule .brvs .brvc

/-- The reach of a conditional branch (R141, 90_conflicts.md C4): away from the two ends of the program
counter's range, the next PC is from 63 words before the branch to 64 words after it. -/
def Obligations.BranchReachIsSixtyFourWords : Prop :=
  ∀ (i : Instr) (s t : State), branchCondition i ≠ none → i.WellFormed →
    63 ≤ s.pc.toNat → s.pc.toNat + 64 < s.cfg.pcWidth.words → exec i s = .next t →
    s.pc.toNat - 63 ≤ t.pc.toNat ∧ t.pc.toNat ≤ s.pc.toNat + 64

/-- A branch reads one flag and nothing else of the state but the program counter (R130): two states that
agree on that flag, the program counter and its width go on at the same address in the same time. -/
def Obligations.BranchReadsOneFlag : Prop :=
  ∀ (i : Instr) (f : Flag) (v : Bool) (s u s' u' : State), branchCondition i = some (f, v) →
    s.sreg.get f = u.sreg.get f → s.pc = u.pc → s.cfg.pcWidth = u.cfg.pcWidth →
    exec i s = .next s' → exec i u = .next u' →
    s'.pc = u'.pc ∧ s'.cycles + u.cycles = u'.cycles + s.cycles

/-- DEC then BRNE (R142, which the spec derives): the branch is taken unless the counter was 1, a counter
of 0 included; where it is not taken the counter is 0, Z is 1 and N, V, S are 0. C is what it was. -/
def Obligations.DecThenBrneLoopsUnlessCounterWasOne : Prop :=
  ∀ (n : Reg) (k : Int) (s : State), ∃ t u,
    exec (.dec n) s = .next t ∧ exec (.brne k) t = .next u ∧ u.sreg.C = s.sreg.C ∧
    (s.readReg n ≠ 1 → (u.pc.toNat : Int) =
      ((s.pc.toNat : Int) + 1 + k + 1) % (s.cfg.pcWidth.words : Int)) ∧
    (s.readReg n = 1 → u.pc.toNat = (s.pc.toNat + 2) % s.cfg.pcWidth.words ∧ u.readReg n = 0 ∧
      u.sreg.Z = true ∧ u.sreg.N = false ∧ u.sreg.V = false ∧ u.sreg.S = false)

/-- JMP (R151), with the bit order of the address and the refusal that are decisions D16 and D3 of the
spec: the two words of every address, the jump where the address fits the program counter, and the
refusal where it does not. -/
def Obligations.JmpGoesToItsAddress : Prop :=
  ∀ (k : Pc) (s : State),
    decode [BitVec.ofNat 16 (0x940C + 16 * (k.toNat / 131072) + k.toNat / 65536 % 2),
      BitVec.ofNat 16 (k.toNat % 65536)] = .ok (.jmp k, []) ∧
    (k.toNat < s.cfg.pcWidth.words →
      ∃ t, exec (.jmp k) s = .next t ∧ t.pc = k ∧ JumpFrame s t) ∧
    (s.cfg.pcWidth.words ≤ k.toNat → exec (.jmp k) s = .refused .jmpTargetWiderThanPc)

/-- RJMP (R152), with the two's-complement displacement and the wrap that are decisions D15 and D2. -/
def Obligations.RjmpIsRelativeToTheNextWord : Prop :=
  (∀ k : Int, inRjmpRange k = true →
    decode [BitVec.ofNat 16 (0xC000 + (k % 4096).toNat)] = .ok (.rjmp k, [])) ∧
  ∀ (k : Int) (s : State), ∃ t, exec (.rjmp k) s = .next t ∧ JumpFrame s t ∧
    (t.pc.toNat : Int) = ((s.pc.toNat : Int) + k + 1) % (s.cfg.pcWidth.words : Int)

/-- IJMP (R153), with Z in R31 and R30, which is decision D4 of the spec: the next PC is the 16-bit word
address in Z on either width, so bits 21:16 are 0. -/
def Obligations.IjmpGoesToZ : Prop :=
  decode [0x9409] = .ok (.ijmp, []) ∧
  ∀ s : State, ∃ t, exec .ijmp s = .next t ∧ JumpFrame s t ∧
    t.pc.toNat = 256 * (s.readReg 31).toNat + (s.readReg 30).toNat

/-- The displacement the assembler computes for a label reaches the label (R67): RJMP and every branch
taken go to word address `a` when their operand is the displacement from the program counter to `a`. -/
def Obligations.LabelDisplacementReachesTheLabel : Prop :=
  ∀ (s : State) (a : Nat), a < s.cfg.pcWidth.words →
    (s.relativeTarget (displacement s.pc.toNat a)).toNat = a

/-! ### Supplementary instructions (from general knowledge, as the spec marks them) -/

/-- LDI (R161). -/
def Obligations.LdiLoadsItsConstant : Prop :=
  ∀ (d : Reg) (K : Byte) (s : State),
    (16 ≤ d.val →
      decode [BitVec.ofNat 16 (0xE000 + 256 * (K.toNat / 16) + 16 * (d.val - 16) + K.toNat % 16)]
        = .ok (.ldi d K, [])) ∧
    ∃ t, exec (.ldi d K) s = .next t ∧ OneWordFrame [d] [] s t ∧ t.readReg d = K

/-- ADD (R162): the exact sum is the result and 256 for the carry; H is the carry of the low nibbles; V
says that the signed sum overflows, and S is the sign of the exact signed sum (R114). -/
def Obligations.AddSumsAndSetsFlags : Prop :=
  ∀ (d r : Reg) (s : State),
    (d ≠ r → decode [BitVec.ofNat 16 (0x0C00 + 512 * (r.val / 16) + 16 * d.val + r.val % 16)]
      = .ok (.add d r, [])) ∧
    ∃ t, exec (.add d r) s = .next t ∧ OneWordFrame [d] [.H, .S, .V, .N, .Z, .C] s t ∧
      256 * t.sreg.C.toNat + (t.readReg d).toNat = (s.readReg d).toNat + (s.readReg r).toNat ∧
      ResultFlags (t.readReg d) t.sreg ∧
      (t.sreg.H = true ↔ 16 ≤ (s.readReg d).toNat % 16 + (s.readReg r).toNat % 16) ∧
      (t.sreg.V = true ↔ ((s.readReg d).toInt + (s.readReg r).toInt < -128 ∨
        127 < (s.readReg d).toInt + (s.readReg r).toInt)) ∧
      (t.sreg.S = true ↔ (s.readReg d).toInt + (s.readReg r).toInt < 0)

/-- ADC (R163): as ADD, with the old carry added. -/
def Obligations.AdcSumsWithCarryAndSetsFlags : Prop :=
  ∀ (d r : Reg) (s : State),
    (d ≠ r → decode [BitVec.ofNat 16 (0x1C00 + 512 * (r.val / 16) + 16 * d.val + r.val % 16)]
      = .ok (.adc d r, [])) ∧
    ∃ t, exec (.adc d r) s = .next t ∧ OneWordFrame [d] [.H, .S, .V, .N, .Z, .C] s t ∧
      256 * t.sreg.C.toNat + (t.readReg d).toNat
        = (s.readReg d).toNat + (s.readReg r).toNat + s.sreg.C.toNat ∧
      ResultFlags (t.readReg d) t.sreg ∧
      (t.sreg.H = true ↔
        16 ≤ (s.readReg d).toNat % 16 + (s.readReg r).toNat % 16 + s.sreg.C.toNat) ∧
      (t.sreg.V = true ↔ ((s.readReg d).toInt + (s.readReg r).toInt + s.sreg.C.toNat < -128 ∨
        127 < (s.readReg d).toInt + (s.readReg r).toInt + s.sreg.C.toNat)) ∧
      (t.sreg.S = true ↔ (s.readReg d).toInt + (s.readReg r).toInt + s.sreg.C.toNat < 0)

/-- EOR (R164). -/
def Obligations.EorExclusiveOrs : Prop :=
  ∀ (d r : Reg) (s : State),
    (d ≠ r → decode [BitVec.ofNat 16 (0x2400 + 512 * (r.val / 16) + 16 * d.val + r.val % 16)]
      = .ok (.eor d r, [])) ∧
    ∃ t, exec (.eor d r) s = .next t ∧ OneWordFrame [d] [.S, .V, .N, .Z] s t ∧
      (∀ b : Nat, (t.readReg d).getLsbD b = ((s.readReg d).getLsbD b ^^ (s.readReg r).getLsbD b)) ∧
      ResultFlags (t.readReg d) t.sreg ∧ t.sreg.V = false

/-- OUT (R165, R35): at a plain address the I/O register takes the value, one event is appended, every
other I/O register, every general register, every flag and program memory are as before; PORTB takes the
value when the address is `PORTB_ADDR` (R37). At any other address OUT is refused (R36, decision D13). -/
def Obligations.OutWritesTheIoRegisterAndAppendsTheEvent : Prop :=
  ∀ (A : IoAddr) (r : Reg) (s : State),
    decode [BitVec.ofNat 16 (0xB800 + 512 * (A.val / 16) + 16 * r.val + A.val % 16)]
      = .ok (.out A r, []) ∧
    (A ∈ s.cfg.ioPlain → ∃ t, exec (.out A r) s = .next t ∧
      t.readIo A = s.readReg r ∧ (∀ B : IoAddr, B ≠ A → t.readIo B = s.readIo B) ∧
      t.ioTrace = s.ioTrace ++ [(A, s.readReg r)] ∧
      (A = s.cfg.portbAddr → t.portB = s.readReg r) ∧
      KeepsRegsExcept [] s t ∧ KeepsFlagsExcept [] s t ∧ KeepsProgram s t ∧ GoesToNextWord s t) ∧
    (A ∉ s.cfg.ioPlain → exec (.out A r) s = .refused .outAddressNotPlain)

/-- SEN and SEZ (R166, R167): one flag is set and every other is as before, S included. -/
def Obligations.SenAndSezSetOneFlag : Prop :=
  decode [0x9428] = .ok (.sen, []) ∧ decode [0x9418] = .ok (.sez, []) ∧
  ∀ s : State,
    (∃ t, exec .sen s = .next t ∧ OneWordFrame [] [.N] s t ∧ t.sreg.N = true) ∧
    (∃ t, exec .sez s = .next t ∧ OneWordFrame [] [.Z] s t ∧ t.sreg.Z = true)

/-! ### The end of a run (R226, decision D14)

That the self-loop ends a run of its own accord, whether or not the run has an `END_PC`, is the model's
choice (notes/assumptions/15.md). -/

/-- A run of at most `n` steps comes out over, with a state as its result, exactly where the machine
reaches that state within `n` steps, at the first boundary where the program counter is `END_PC` or the
self-loop `RJMP -1` stands at it. So a run that reaches such a boundary does end there, and more steps
change nothing. -/
def Obligations.RunEndsAtTheFirstEndBoundary : Prop :=
  ∀ (n : Nat) (s t : State),
    runToEnd n s = .over t ↔ ∃ k, k ≤ n ∧ FirstReaches EndBoundary s k t

/-- A run from a state of the invariant that reaches `END_PC` is over at the first boundary where the
program counter is `END_PC`, with the state there as its result: no self-loop ends it before. -/
def Obligations.RunEndsAtTheFirstBoundaryAtEndPc : Prop :=
  ∀ (n k : Nat) (s t : State), Inv s → k ≤ n →
    FirstReaches (fun u => u.cfg.endPc = some u.pc) s k t → runToEnd n s = .over t

/-- At the self-loop `RJMP -1` a run is over, and its state is the result for good: the machine itself
goes on for ever, each step costs 2 cycles, and nothing but the count of cycles changes (R152, whose
'jumps to itself for ever' the spec derives). -/
def Obligations.SelfLoopEndsARunAndChangesNothing : Prop :=
  ∀ (n : Nat) (s : State), s.pc.toNat < s.cfg.pcWidth.words →
    s.progRead s.pc.toNat = .next 0xCFFF →
    runToEnd n s = .over s ∧
    Sys2Proof.core.run n s = .next { s with cycles := s.cycles + 2 * n }
end

