-- ==== Sys2Proof/Laws/State.lean ====
section
/-! SUPPORT. One lemma per field of State per update, so that no proof unfolds a record update, and
what a register or an I/O register reads as after each update. -/

namespace Sys2Proof.Machine

/-! ### writeReg -/

@[simp] theorem State.writeReg_cfg (s : State) (d : Reg) (v : Byte) : (s.writeReg d v).cfg = s.cfg := rfl
@[simp] theorem State.writeReg_sreg (s : State) (d : Reg) (v : Byte) : (s.writeReg d v).sreg = s.sreg := rfl
@[simp] theorem State.writeReg_pc (s : State) (d : Reg) (v : Byte) : (s.writeReg d v).pc = s.pc := rfl
@[simp] theorem State.writeReg_prog (s : State) (d : Reg) (v : Byte) : (s.writeReg d v).prog = s.prog := rfl
@[simp] theorem State.writeReg_io (s : State) (d : Reg) (v : Byte) : (s.writeReg d v).io = s.io := rfl
@[simp] theorem State.writeReg_ioTrace (s : State) (d : Reg) (v : Byte) :
    (s.writeReg d v).ioTrace = s.ioTrace := rfl
@[simp] theorem State.writeReg_cycles (s : State) (d : Reg) (v : Byte) :
    (s.writeReg d v).cycles = s.cycles := rfl
@[simp] theorem State.writeReg_regs (s : State) (d : Reg) (v : Byte) :
    (s.writeReg d v).regs = s.regs.set d.val v d.isLt := rfl

/-! ### writeSreg -/

@[simp] theorem State.writeSreg_cfg (s : State) (f : Sreg) : (s.writeSreg f).cfg = s.cfg := rfl
@[simp] theorem State.writeSreg_regs (s : State) (f : Sreg) : (s.writeSreg f).regs = s.regs := rfl
@[simp] theorem State.writeSreg_sreg (s : State) (f : Sreg) : (s.writeSreg f).sreg = f := rfl
@[simp] theorem State.writeSreg_pc (s : State) (f : Sreg) : (s.writeSreg f).pc = s.pc := rfl
@[simp] theorem State.writeSreg_prog (s : State) (f : Sreg) : (s.writeSreg f).prog = s.prog := rfl
@[simp] theorem State.writeSreg_io (s : State) (f : Sreg) : (s.writeSreg f).io = s.io := rfl
@[simp] theorem State.writeSreg_ioTrace (s : State) (f : Sreg) : (s.writeSreg f).ioTrace = s.ioTrace := rfl
@[simp] theorem State.writeSreg_cycles (s : State) (f : Sreg) : (s.writeSreg f).cycles = s.cycles := rfl

/-! ### goTo and advance -/

@[simp] theorem State.goTo_cfg (s : State) (p : Pc) (n : Nat) : (s.goTo p n).cfg = s.cfg := rfl
@[simp] theorem State.goTo_regs (s : State) (p : Pc) (n : Nat) : (s.goTo p n).regs = s.regs := rfl
@[simp] theorem State.goTo_sreg (s : State) (p : Pc) (n : Nat) : (s.goTo p n).sreg = s.sreg := rfl
@[simp] theorem State.goTo_pc (s : State) (p : Pc) (n : Nat) : (s.goTo p n).pc = p := rfl
@[simp] theorem State.goTo_prog (s : State) (p : Pc) (n : Nat) : (s.goTo p n).prog = s.prog := rfl
@[simp] theorem State.goTo_io (s : State) (p : Pc) (n : Nat) : (s.goTo p n).io = s.io := rfl
@[simp] theorem State.goTo_ioTrace (s : State) (p : Pc) (n : Nat) : (s.goTo p n).ioTrace = s.ioTrace := rfl
@[simp] theorem State.goTo_cycles (s : State) (p : Pc) (n : Nat) :
    (s.goTo p n).cycles = s.cycles + n := rfl

@[simp] theorem State.advance_cfg (s : State) : s.advance.cfg = s.cfg := rfl
@[simp] theorem State.advance_regs (s : State) : s.advance.regs = s.regs := rfl
@[simp] theorem State.advance_sreg (s : State) : s.advance.sreg = s.sreg := rfl
@[simp] theorem State.advance_pc (s : State) : s.advance.pc = s.sequentialTarget := rfl
@[simp] theorem State.advance_prog (s : State) : s.advance.prog = s.prog := rfl
@[simp] theorem State.advance_io (s : State) : s.advance.io = s.io := rfl
@[simp] theorem State.advance_ioTrace (s : State) : s.advance.ioTrace = s.ioTrace := rfl
@[simp] theorem State.advance_cycles (s : State) : s.advance.cycles = s.cycles + 1 := rfl

/-! ### ioWrite -/

@[simp] theorem State.ioWrite_cfg (s : State) (A : IoAddr) (v : Byte) : (s.ioWrite A v).cfg = s.cfg := rfl
@[simp] theorem State.ioWrite_regs (s : State) (A : IoAddr) (v : Byte) : (s.ioWrite A v).regs = s.regs := rfl
@[simp] theorem State.ioWrite_sreg (s : State) (A : IoAddr) (v : Byte) : (s.ioWrite A v).sreg = s.sreg := rfl
@[simp] theorem State.ioWrite_pc (s : State) (A : IoAddr) (v : Byte) : (s.ioWrite A v).pc = s.pc := rfl
@[simp] theorem State.ioWrite_prog (s : State) (A : IoAddr) (v : Byte) : (s.ioWrite A v).prog = s.prog := rfl
@[simp] theorem State.ioWrite_io (s : State) (A : IoAddr) (v : Byte) :
    (s.ioWrite A v).io = s.io.set A.val v A.isLt := rfl
@[simp] theorem State.ioWrite_ioTrace (s : State) (A : IoAddr) (v : Byte) :
    (s.ioWrite A v).ioTrace = s.ioTrace ++ [(A, v)] := rfl
@[simp] theorem State.ioWrite_cycles (s : State) (A : IoAddr) (v : Byte) :
    (s.ioWrite A v).cycles = s.cycles := rfl

/-! ### withFetchWord -/

@[simp] theorem State.withFetchWord_cfg (s : State) (n w : Nat) : (s.withFetchWord n w).cfg = s.cfg := rfl
@[simp] theorem State.withFetchWord_regs (s : State) (n w : Nat) : (s.withFetchWord n w).regs = s.regs := rfl
@[simp] theorem State.withFetchWord_sreg (s : State) (n w : Nat) : (s.withFetchWord n w).sreg = s.sreg := rfl
@[simp] theorem State.withFetchWord_pc (s : State) (n w : Nat) : (s.withFetchWord n w).pc = s.pc := rfl
@[simp] theorem State.withFetchWord_io (s : State) (n w : Nat) : (s.withFetchWord n w).io = s.io := rfl
@[simp] theorem State.withFetchWord_ioTrace (s : State) (n w : Nat) :
    (s.withFetchWord n w).ioTrace = s.ioTrace := rfl
@[simp] theorem State.withFetchWord_cycles (s : State) (n w : Nat) :
    (s.withFetchWord n w).cycles = s.cycles := rfl

/-! ### What a register reads as after an update -/

theorem State.readReg_writeReg (s : State) (d j : Reg) (v : Byte) :
    (s.writeReg d v).readReg j = if d = j then v else s.readReg j := by
  simp only [State.readReg, State.writeReg_regs, Vector.getElem_set, Fin.ext_iff]

@[simp] theorem State.readReg_writeReg_same (s : State) (d : Reg) (v : Byte) :
    (s.writeReg d v).readReg d = v := by simp [State.readReg_writeReg]

@[simp] theorem State.readReg_writeReg_other (s : State) (d j : Reg) (v : Byte) (h : d ≠ j) :
    (s.writeReg d v).readReg j = s.readReg j := by simp [State.readReg_writeReg, h]

@[simp] theorem State.readReg_writeSreg (s : State) (f : Sreg) (j : Reg) :
    (s.writeSreg f).readReg j = s.readReg j := rfl
@[simp] theorem State.readReg_goTo (s : State) (p : Pc) (n : Nat) (j : Reg) :
    (s.goTo p n).readReg j = s.readReg j := rfl
@[simp] theorem State.readReg_advance (s : State) (j : Reg) : s.advance.readReg j = s.readReg j := rfl
@[simp] theorem State.readReg_ioWrite (s : State) (A : IoAddr) (v : Byte) (j : Reg) :
    (s.ioWrite A v).readReg j = s.readReg j := rfl

/-! ### What an I/O register reads as after an update -/

theorem State.readIo_ioWrite (s : State) (A B : IoAddr) (v : Byte) :
    (s.ioWrite A v).readIo B = if A = B then v else s.readIo B := by
  simp only [State.readIo, State.ioWrite_io, Vector.getElem_set, Fin.ext_iff]

@[simp] theorem State.readIo_ioWrite_same (s : State) (A : IoAddr) (v : Byte) :
    (s.ioWrite A v).readIo A = v := by simp [State.readIo_ioWrite]

@[simp] theorem State.readIo_ioWrite_other (s : State) (A B : IoAddr) (v : Byte) (h : A ≠ B) :
    (s.ioWrite A v).readIo B = s.readIo B := by simp [State.readIo_ioWrite, h]

@[simp] theorem State.readIo_writeReg (s : State) (d : Reg) (v : Byte) (A : IoAddr) :
    (s.writeReg d v).readIo A = s.readIo A := rfl
@[simp] theorem State.readIo_writeSreg (s : State) (f : Sreg) (A : IoAddr) :
    (s.writeSreg f).readIo A = s.readIo A := rfl
@[simp] theorem State.readIo_goTo (s : State) (p : Pc) (n : Nat) (A : IoAddr) :
    (s.goTo p n).readIo A = s.readIo A := rfl
@[simp] theorem State.readIo_advance (s : State) (A : IoAddr) : s.advance.readIo A = s.readIo A := rfl

end Sys2Proof.Machine
end

