-- ==== Sys2Proof/Laws/Ops.lean ====
section
/-! SUPPORT. One lemma for each shared operation, saying everything it can do; proofs cite these and
do not unfold the operation. -/

namespace Sys2Proof.Machine

/-! ### Answers -/

@[simp] theorem Answer.andThen_next {α β : Type} (a : α) (f : α → Answer β) :
    Answer.andThen (.next a) f = f a := rfl
@[simp] theorem Answer.andThen_fault {α β : Type} (r : Fault) (f : α → Answer β) :
    Answer.andThen (.fault r) f = .fault r := rfl
@[simp] theorem Answer.andThen_refused {α β : Type} (r : Refusal) (f : α → Answer β) :
    Answer.andThen (.refused r) f = .refused r := rfl

/-- Two answers in a row give a next value only where both do. -/
theorem Answer.andThen_eq_next {α β : Type} {x : Answer α} {f : α → Answer β} {b : β} :
    x.andThen f = .next b ↔ ∃ a, x = .next a ∧ f a = .next b := by
  cases x <;> simp [Answer.andThen]

/-! ### The program counter -/

theorem PcWidth.words_pos (w : PcWidth) : 0 < w.words := by cases w <;> decide

theorem PcWidth.words_le (w : PcWidth) : w.words ≤ 4194304 := by cases w <;> decide

/-- `PcWidth.words` is `2^PC_BITS`. -/
theorem PcWidth.words_eq_two_pow (w : PcWidth) : w.words = 2 ^ w.bits := by cases w <;> decide

/-- What a reduced next-PC sum is, as a number (R17). -/
theorem pcWrap_toInt (w : PcWidth) (n : Int) : ((pcWrap w n).toNat : Int) = n % (w.words : Int) := by
  have hp := PcWidth.words_pos w
  have hl := PcWidth.words_le w
  have h0 : 0 ≤ n % (w.words : Int) := Int.emod_nonneg n (by omega)
  have h1 : n % (w.words : Int) < w.words := Int.emod_lt_of_pos n (by omega)
  rw [pcWrap, BitVec.toNat_ofNat, Nat.mod_eq_of_lt (by omega), Int.toNat_of_nonneg h0]

/-- A reduced next-PC sum fits the program counter. -/
theorem pcWrap_lt (w : PcWidth) (n : Int) : (pcWrap w n).toNat < w.words := by
  have h := pcWrap_toInt w n
  have hp := PcWidth.words_pos w
  have h1 : n % (w.words : Int) < w.words := Int.emod_lt_of_pos n (by omega)
  omega

theorem State.relativeTarget_lt (s : State) (k : Int) :
    (s.relativeTarget k).toNat < s.cfg.pcWidth.words := pcWrap_lt _ _

theorem State.sequentialTarget_lt (s : State) : s.sequentialTarget.toNat < s.cfg.pcWidth.words :=
  pcWrap_lt _ _

theorem State.relativeTarget_toInt (s : State) (k : Int) :
    ((s.relativeTarget k).toNat : Int) =
      ((s.pc.toNat : Int) + k + 1) % (s.cfg.pcWidth.words : Int) := pcWrap_toInt _ _

theorem State.sequentialTarget_toNat (s : State) :
    s.sequentialTarget.toNat = (s.pc.toNat + 1) % s.cfg.pcWidth.words := by
  have h := pcWrap_toInt s.cfg.pcWidth ((s.pc.toNat : Int) + 1)
  have e : s.sequentialTarget = pcWrap s.cfg.pcWidth ((s.pc.toNat : Int) + 1) := rfl
  rw [← e] at h
  exact_mod_cast h

/-- The word address in Z fits any program counter (R153). -/
theorem State.zTarget_lt (s : State) : s.zTarget.toNat < s.cfg.pcWidth.words := by
  have h := s.zPointer.isLt
  have e : s.zTarget.toNat = s.zPointer.toNat := by
    rw [State.zTarget, BitVec.toNat_setWidth, Nat.mod_eq_of_lt (by omega)]
  rw [e]
  cases s.cfg.pcWidth <;> simp only [PcWidth.words] <;> omega

/-! ### The fetch -/

/-- What `progRead` answers, in all its cases (R31, R33). -/
theorem State.progRead_cases (s : State) (a : Nat) :
    (s.cfg.flashWords ≤ a ∧ s.progRead a = .refused .fetchOutsideProgramMemory) ∨
    (a < s.cfg.flashWords ∧ s.progRead a = .fault .programWordNotLoaded) ∨
    (a < s.cfg.flashWords ∧ ∃ lo hi, Memory.read s.prog (2 * a) = some lo ∧
      Memory.read s.prog (2 * a + 1) = some hi ∧ s.progRead a = .next (wordOfBytes lo hi)) := by
  by_cases h : a < s.cfg.flashWords
  · cases h1 : Memory.read s.prog (2 * a) with
    | none => exact .inr (.inl ⟨h, by simp [State.progRead, h, h1]⟩)
    | some lo =>
      cases h2 : Memory.read s.prog (2 * a + 1) with
      | none => exact .inr (.inl ⟨h, by simp [State.progRead, h, h1, h2]⟩)
      | some hi => exact .inr (.inr ⟨h, lo, hi, rfl, rfl, by simp [State.progRead, h, h1, h2]⟩)
  · exact .inl ⟨Nat.le_of_not_lt h, by simp [State.progRead, h]⟩

/-- Two loaded bytes inside program memory are a word. -/
theorem State.progRead_of_read {s : State} {a : Nat} {lo hi : Byte} (h : a < s.cfg.flashWords)
    (h1 : Memory.read s.prog (2 * a) = some lo) (h2 : Memory.read s.prog (2 * a + 1) = some hi) :
    s.progRead a = .next (wordOfBytes lo hi) := by simp [State.progRead, h, h1, h2]

/-- Outside program memory a fetch is refused (R33). -/
theorem State.progRead_outside {s : State} {a : Nat} (h : s.cfg.flashWords ≤ a) :
    s.progRead a = .refused .fetchOutsideProgramMemory := by
  simp [State.progRead, Nat.not_lt.mpr h]

/-- A word that is read stands inside program memory. -/
theorem State.progRead_next_lt {s : State} {a : Nat} {w : Word} (h : s.progRead a = .next w) :
    a < s.cfg.flashWords := by
  rcases s.progRead_cases a with ⟨_, e⟩ | ⟨_, e⟩ | ⟨hlt, _⟩
  · rw [e] at h; cases h
  · rw [e] at h; cases h
  · exact hlt

/-! ### The ends of instructions -/

@[simp] theorem State.finish_cfg (s : State) (d : Reg) (R : Byte) (f : Sreg) :
    (s.finish d R f).cfg = s.cfg := rfl
@[simp] theorem State.finish_sreg (s : State) (d : Reg) (R : Byte) (f : Sreg) :
    (s.finish d R f).sreg = f := rfl
@[simp] theorem State.finish_prog (s : State) (d : Reg) (R : Byte) (f : Sreg) :
    (s.finish d R f).prog = s.prog := rfl
@[simp] theorem State.finish_io (s : State) (d : Reg) (R : Byte) (f : Sreg) :
    (s.finish d R f).io = s.io := rfl
@[simp] theorem State.finish_ioTrace (s : State) (d : Reg) (R : Byte) (f : Sreg) :
    (s.finish d R f).ioTrace = s.ioTrace := rfl
@[simp] theorem State.finish_cycles (s : State) (d : Reg) (R : Byte) (f : Sreg) :
    (s.finish d R f).cycles = s.cycles + 1 := rfl
@[simp] theorem State.finish_pc (s : State) (d : Reg) (R : Byte) (f : Sreg) :
    (s.finish d R f).pc = s.sequentialTarget := rfl
@[simp] theorem State.readIo_finish (s : State) (d : Reg) (R : Byte) (f : Sreg) (A : IoAddr) :
    (s.finish d R f).readIo A = s.readIo A := rfl

theorem State.readReg_finish (s : State) (d : Reg) (R : Byte) (f : Sreg) (j : Reg) :
    (s.finish d R f).readReg j = if d = j then R else s.readReg j := by
  rw [State.finish, State.readReg_advance, State.readReg_writeSreg, State.readReg_writeReg]

@[simp] theorem State.readReg_finish_same (s : State) (d : Reg) (R : Byte) (f : Sreg) :
    (s.finish d R f).readReg d = R := by simp [State.readReg_finish]

/-- What the common operation of the branches can do (R131). -/
theorem State.branchOn_cases (s : State) (f : Flag) (v : Bool) (k : Int) :
    (s.sreg.get f = v ∧ s.branchOn f v k = s.goTo (s.relativeTarget k) 2) ∨
    (s.sreg.get f ≠ v ∧ s.branchOn f v k = s.goTo s.sequentialTarget 1) := by
  by_cases h : s.sreg.get f = v
  · exact .inl ⟨h, by simp [State.branchOn, h]⟩
  · exact .inr ⟨h, by simp [State.branchOn, h]⟩

/-! ### The flags of a result (R100) -/

@[simp] theorem Sreg.withResult_N (f : Sreg) (R : Byte) (v : Bool) :
    (f.withResult R v).N = R.getLsbD 7 := rfl
@[simp] theorem Sreg.withResult_Z (f : Sreg) (R : Byte) (v : Bool) :
    (f.withResult R v).Z = decide (R = 0x00) := rfl
@[simp] theorem Sreg.withResult_V (f : Sreg) (R : Byte) (v : Bool) : (f.withResult R v).V = v := rfl
@[simp] theorem Sreg.withResult_S (f : Sreg) (R : Byte) (v : Bool) :
    (f.withResult R v).S = (R.getLsbD 7 ^^ v) := rfl
@[simp] theorem Sreg.withResult_C (f : Sreg) (R : Byte) (v : Bool) : (f.withResult R v).C = f.C := rfl
@[simp] theorem Sreg.withResult_H (f : Sreg) (R : Byte) (v : Bool) : (f.withResult R v).H = f.H := rfl
@[simp] theorem Sreg.withResult_T (f : Sreg) (R : Byte) (v : Bool) : (f.withResult R v).T = f.T := rfl
@[simp] theorem Sreg.withResult_I (f : Sreg) (R : Byte) (v : Bool) : (f.withResult R v).I = f.I := rfl

/-! ### The output trace (R35) -/

theorem lastWrite_append (A : IoAddr) (es : List IoEvent) (e : IoEvent) :
    lastWrite A (es ++ [e]) = if e.1 = A then some e.2 else lastWrite A es := by
  induction es with
  | nil => simp [lastWrite]
  | cons x es ih =>
    rw [List.cons_append, lastWrite, ih]
    by_cases h : e.1 = A
    · simp [h]
    · simp [h, lastWrite]

end Sys2Proof.Machine
end

