-- ==== Sys2Proof/Laws/PerInstr.lean ====
section
/-! SUPPORT. The family EncodedSize: the encoder gives every instruction as many words as the manual
says it takes (30_encoding.md R50). -/

namespace Sys2Proof.Laws.EncodedSize

/-- The instruction's encoding has the instruction's size. -/
def Statement (i : Instr) : Prop := (encode i).length = i.words

theorem clr (d : Reg) : Statement (.clr d) := rfl
theorem inc (d : Reg) : Statement (.inc d) := rfl
theorem dec (d : Reg) : Statement (.dec d) := rfl
theorem com (d : Reg) : Statement (.com d) := rfl
theorem neg (d : Reg) : Statement (.neg d) := rfl
theorem rol (d : Reg) : Statement (.rol d) := rfl
theorem ror (d : Reg) : Statement (.ror d) := rfl
theorem lsl (d : Reg) : Statement (.lsl d) := rfl
theorem lsr (d : Reg) : Statement (.lsr d) := rfl
theorem asr (d : Reg) : Statement (.asr d) := rfl
theorem swap (d : Reg) : Statement (.swap d) := rfl
theorem brne (k : Int) : Statement (.brne k) := rfl
theorem brlo (k : Int) : Statement (.brlo k) := rfl
theorem brsh (k : Int) : Statement (.brsh k) := rfl
theorem breq (k : Int) : Statement (.breq k) := rfl
theorem brmi (k : Int) : Statement (.brmi k) := rfl
theorem brpl (k : Int) : Statement (.brpl k) := rfl
theorem brvc (k : Int) : Statement (.brvc k) := rfl
theorem brvs (k : Int) : Statement (.brvs k) := rfl
theorem jmp (k : Pc) : Statement (.jmp k) := rfl
theorem rjmp (k : Int) : Statement (.rjmp k) := rfl
theorem ijmp : Statement .ijmp := rfl
theorem ldi (d : Reg) (K : Byte) : Statement (.ldi d K) := rfl
theorem add (d r : Reg) : Statement (.add d r) := rfl
theorem adc (d r : Reg) : Statement (.adc d r) := rfl
theorem eor (d r : Reg) : Statement (.eor d r) := rfl
theorem out (A : IoAddr) (r : Reg) : Statement (.out A r) := rfl
theorem sen : Statement .sen := rfl
theorem sez : Statement .sez := rfl

end Sys2Proof.Laws.EncodedSize
end

