-- ==== Sys2Proof/Laws/Step.lean ====
section
/-! SUPPORT. What an instruction and a step can do, said once. -/

namespace Sys2Proof.Machine

/-- Everything an instruction can do when it gives a next state: write one register with the flags
and advance, write flags only and advance, write the I/O space and advance, or jump. -/
theorem exec_next_cases {i : Instr} {s t : State} (h : exec i s = .next t) :
    (∃ d R f, destination i = some d ∧ t = s.finish d R f) ∨
    (∃ f, (i = .sen ∨ i = .sez) ∧ t = (s.writeSreg f).advance) ∨
    (∃ A r, i = .out A r ∧ A ∈ s.cfg.ioPlain ∧ t = (s.ioWrite A (s.readReg r)).advance) ∨
    (∃ p n, p.toNat < s.cfg.pcWidth.words ∧ destination i = none ∧ flagsWritten i = [] ∧
      ioDestination i = none ∧ t = s.goTo p n) := by
  have branch : ∀ f v k, s.branchOn f v k = t →
      ∃ p n, p.toNat < s.cfg.pcWidth.words ∧ t = s.goTo p n := by
    intro f v k e
    rcases s.branchOn_cases f v k with ⟨_, e'⟩ | ⟨_, e'⟩
    · exact ⟨_, _, s.relativeTarget_lt k, e ▸ e'⟩
    · exact ⟨_, _, s.sequentialTarget_lt, e ▸ e'⟩
  have jump : ∀ {i : Instr}, (∃ p n, p.toNat < s.cfg.pcWidth.words ∧ t = s.goTo p n) →
      destination i = none → flagsWritten i = [] → ioDestination i = none →
      ∃ p n, p.toNat < s.cfg.pcWidth.words ∧ destination i = none ∧ flagsWritten i = [] ∧
        ioDestination i = none ∧ t = s.goTo p n := by
    rintro i ⟨p, n, hp, ht⟩ h1 h2 h3
    exact ⟨p, n, hp, h1, h2, h3, ht⟩
  cases i with
  | clr d | inc d | dec d | com d | neg d | rol d | ror d | lsl d | lsr d | asr d | swap d =>
    exact .inl ⟨d, _, _, rfl, (Host.Outcome.next.inj h).symm⟩
  | ldi d K => exact .inl ⟨d, _, _, rfl, (Host.Outcome.next.inj h).symm⟩
  | add d r | adc d r | eor d r => exact .inl ⟨d, _, _, rfl, (Host.Outcome.next.inj h).symm⟩
  | sen => exact .inr (.inl ⟨_, .inl rfl, (Host.Outcome.next.inj h).symm⟩)
  | sez => exact .inr (.inl ⟨_, .inr rfl, (Host.Outcome.next.inj h).symm⟩)
  | out A r =>
    by_cases hA : A ∈ s.cfg.ioPlain
    · refine .inr (.inr (.inl ⟨A, r, rfl, hA, ?_⟩))
      simp only [exec, execOut, if_pos hA] at h
      exact (Host.Outcome.next.inj h).symm
    · simp [exec, execOut, hA] at h
  | brne k | brlo k | brsh k | breq k | brmi k | brpl k | brvc k | brvs k =>
    exact .inr (.inr (.inr (jump (branch _ _ k (Host.Outcome.next.inj h)) rfl rfl rfl)))
  | jmp k =>
    by_cases hk : k.toNat < s.cfg.pcWidth.words
    · simp only [exec, execJmp, if_pos hk] at h
      exact .inr (.inr (.inr (jump ⟨k, 3, hk, (Host.Outcome.next.inj h).symm⟩ rfl rfl rfl)))
    · simp [exec, execJmp, hk] at h
  | rjmp k =>
    exact .inr (.inr (.inr
      (jump ⟨_, 2, s.relativeTarget_lt k, (Host.Outcome.next.inj h).symm⟩ rfl rfl rfl)))
  | ijmp =>
    exact .inr (.inr (.inr
      (jump ⟨_, 2, s.zTarget_lt, (Host.Outcome.next.inj h).symm⟩ rfl rfl rfl)))

/-- A step gives a next state only by fetching an instruction and running it. -/
theorem step_next {s t : State} (h : step s = .next t) :
    ∃ i, s.fetch = .next i ∧ exec i s = .next t := Answer.andThen_eq_next.mp h

/-- A step whose fetch gives an instruction runs it. -/
theorem step_of_fetch {s : State} {i : Instr} (h : s.fetch = .next i) : step s = exec i s := by
  rw [step, h, Answer.andThen_next]

/-- A run of one step more gives a next state only by a step and a run from there. -/
theorem core_run_succ {n : Nat} {s t : State} :
    Sys2Proof.core.run (n + 1) s = .next t ↔
      ∃ u, step s = .next u ∧ Sys2Proof.core.run n u = .next t := by
  have e : Sys2Proof.core.step s = step s := rfl
  simp only [Host.Core.run]
  rw [← e]
  cases Sys2Proof.core.step s with
  | next u =>
    exact ⟨fun h => ⟨u, rfl, h⟩, fun ⟨v, hv, h⟩ => by cases Host.Outcome.next.inj hv; exact h⟩
  | fault r => exact ⟨fun h => (by cases h), fun ⟨v, hv, _⟩ => (by cases hv)⟩
  | refused r => exact ⟨fun h => (by cases h), fun ⟨v, hv, _⟩ => (by cases hv)⟩

/-- What holds of a state and is kept by every step holds of every state the run reaches. -/
theorem holds_of_reachable {P : State → Prop} {s t : State}
    (keep : ∀ u v, P u → step u = .next v → P v) (h0 : P s) {n : Nat}
    (h : Sys2Proof.core.run n s = .next t) : P t := by
  induction n generalizing s with
  | zero => exact Host.Outcome.next.inj h ▸ h0
  | succ n ih =>
    obtain ⟨u, hu, hr⟩ := core_run_succ.mp h
    exact ih (keep s u h0 hu) hr

end Sys2Proof.Machine
end

