-- ==== Sys2Proof/Laws/Run.lean ====
section
/-! SUPPORT. Where a run is over, and what `runToEnd` answers, said once (70_reset_and_hazards.md R226). -/

namespace Sys2Proof.Machine

/-! ### The end of a run -/

@[simp] theorem State.atEndPc_iff (s : State) : s.atEndPc = true ↔ s.cfg.endPc = some s.pc := by
  simp [State.atEndPc]

@[simp] theorem State.atSelfLoop_iff (s : State) :
    s.atSelfLoop = true ↔ s.progRead s.pc.toNat = .next 0xCFFF := by
  cases h : s.progRead s.pc.toNat <;> simp [State.atSelfLoop, h]

/-- The self-loop at the program counter is fetched as `RJMP -1` on every device. -/
theorem State.fetch_selfLoop {s : State} (h : s.progRead s.pc.toNat = .next 0xCFFF) :
    s.fetch = .next (.rjmp (-1)) := by
  rw [State.fetch, h]
  rfl

/-- A run is over exactly at an end boundary. -/
theorem State.runOver_iff (s : State) : s.runOver = true ↔ EndBoundary s := by
  simp [State.runOver, EndBoundary]

/-- A step at the self-loop: the jump and its two cycles. -/
theorem step_selfLoop {s : State} (h : s.progRead s.pc.toNat = .next 0xCFFF) :
    step s = .next (s.goTo (s.relativeTarget (-1)) 2) := step_of_fetch (State.fetch_selfLoop h)

/-! ### Runs -/

theorem runToEnd_of_over {s : State} (h : s.runOver = true) (n : Nat) : runToEnd n s = .over s := by
  cases n <;> simp [runToEnd, h]

theorem runToEnd_succ {n : Nat} {s t : State} (h : s.runOver = false) (hs : step s = .next t) :
    runToEnd (n + 1) s = runToEnd n t := by simp [runToEnd, h, hs]

/-- A run comes out over only at once, or by a step and a run that comes out over from there. -/
theorem runToEnd_over_cases {n : Nat} {s t : State} (h : runToEnd n s = .over t) :
    (s.runOver = true ∧ t = s) ∨
    (s.runOver = false ∧ ∃ m u, n = m + 1 ∧ step s = .next u ∧ runToEnd m u = .over t) := by
  cases ho : s.runOver with
  | true =>
    rw [runToEnd_of_over ho] at h
    exact .inl ⟨rfl, (RunResult.over.inj h).symm⟩
  | false =>
    cases n with
    | zero => simp [runToEnd, ho] at h
    | succ m =>
      cases hs : step s with
      | next u => exact .inr ⟨rfl, m, u, rfl, rfl, by rw [runToEnd_succ ho hs] at h; exact h⟩
      | fault r => simp [runToEnd, ho, hs] at h
      | refused r => simp [runToEnd, ho, hs] at h

end Sys2Proof.Machine
end

