-- ==== Sys2Proof/Tests/Slice0.lean ====
section
/-! SUPPORT. Tests. Every expected value is of spec/95_test_vectors.md (the section is named) or is
worked out by hand from the rule named. The witnesses at the end show that the hypotheses of the
statements can be met together. -/

namespace Sys2Proof.Tests

open Sys2Proof Sys2Proof.Machine

/-! ### Helpers -/

/-- A small state on the reference device: two registers, SREG as a byte, the program counter, and
words loaded from the program counter on. -/
def small (r16 r17 : Byte) (sreg : Byte) (pc : Pc) (words : List Word) : State :=
  let s := (State.reset.writeReg 16 r16).writeReg 17 r17
  { s with sreg := Sreg.ofByte sreg, pc := pc, prog := Memory.loadWords [] pc.toNat words }

/-- The reference device with the 16-bit program counter. -/
def narrow (s : State) : State :=
  { s with cfg := { s.cfg with pcWidth := .pc16, flashWords := 65536 } }

/-- The answer is a next state with these properties. -/
def nextIs (x : Answer State) (p : State → Bool) : Bool :=
  match x with
  | .next t => p t
  | .fault _ => false
  | .refused _ => false

/-- The answer is this refusal. -/
def refusedAs (x : Answer State) (r : Refusal) : Bool :=
  match x with
  | .refused q => decide (q = r)
  | .next _ => false
  | .fault _ => false

/-- The answer is this fault. -/
def faultsAs (x : Answer State) (r : Fault) : Bool :=
  match x with
  | .fault q => decide (q = r)
  | .next _ => false
  | .refused _ => false

/-- R16 and SREG as a byte after a one-register instruction on R16. -/
def gives (i : Instr) (rd sreg R sreg' : Byte) : Bool :=
  nextIs (exec i (small rd 0 sreg 0 [])) fun t =>
    decide (t.readReg 16 = R) && decide (t.sreg.toByte = sreg') && decide (t.pc = 1)

/-- R16 and SREG as a byte after an instruction on R16 and R17. -/
def gives2 (i : Instr) (rd rr sreg R sreg' : Byte) : Bool :=
  nextIs (exec i (small rd rr sreg 0 [])) fun t =>
    decide (t.readReg 16 = R) && decide (t.readReg 17 = rr) && decide (t.sreg.toByte = sreg')

/-- The next PC of a branch at 0x0100 with the given SREG (section 2.14). -/
def branchesTo (i : Instr) (sreg : Byte) (target : Pc) : Bool :=
  nextIs (exec i (small 0 0 sreg 0x0100 [])) fun t =>
    decide (t.pc = target) && decide (t.sreg.toByte = sreg)

/-! ### WellFormed: each check refuses an ill-formed term -/

theorem test_wellFormed_branch_below : ¬ (Instr.brne (-65)).WellFormed := by decide
theorem test_wellFormed_branch_above : ¬ (Instr.brvs 64).WellFormed := by decide
theorem test_wellFormed_rjmp_below : ¬ (Instr.rjmp (-2049)).WellFormed := by decide
theorem test_wellFormed_rjmp_above : ¬ (Instr.rjmp 2048).WellFormed := by decide
theorem test_wellFormed_ldi_low_register : ¬ (Instr.ldi 5 1).WellFormed := by decide
theorem test_wellFormed_add_equal : ¬ (Instr.add 16 16).WellFormed := by decide
theorem test_wellFormed_adc_equal : ¬ (Instr.adc 0 0).WellFormed := by decide
theorem test_wellFormed_eor_equal : ¬ (Instr.eor 31 31).WellFormed := by decide

/-! ### Decoding: a word of every constructor (section 2.16, and the encodings of R101 to R167) -/

theorem test_decode_clr : decode [0b0010011100010001] = .ok (.clr 17, []) := by decide
theorem test_decode_inc : decode [0b1001010100010011] = .ok (.inc 17, []) := by decide
theorem test_decode_dec : decode [0b1001010100001010] = .ok (.dec 16, []) := by decide
theorem test_decode_com : decode [0b1001010111110000] = .ok (.com 31, []) := by decide
theorem test_decode_neg : decode [0b1001010000010001] = .ok (.neg 1, []) := by decide
theorem test_decode_rol : decode [0b0001111110011001] = .ok (.rol 25, []) := by decide
theorem test_decode_ror : decode [0b1001010110000111] = .ok (.ror 24, []) := by decide
theorem test_decode_lsl : decode [0b0000111110001000] = .ok (.lsl 24, []) := by decide
theorem test_decode_lsr : decode [0b1001010100000110] = .ok (.lsr 16, []) := by decide
theorem test_decode_asr : decode [0b1001010110010101] = .ok (.asr 25, []) := by decide
theorem test_decode_swap : decode [0b1001010110000010] = .ok (.swap 24, []) := by decide
theorem test_decode_brne : decode [0b1111011111101001] = .ok (.brne (-3), []) := by decide
theorem test_decode_brlo : decode [0b1111000000001000] = .ok (.brlo 1, []) := by decide
theorem test_decode_brsh : decode [0b1111011000000000] = .ok (.brsh (-64), []) := by decide
theorem test_decode_breq : decode [0b1111000111111001] = .ok (.breq 63, []) := by decide
theorem test_decode_brmi : decode [0b1111001111111010] = .ok (.brmi (-1), []) := by decide
theorem test_decode_brpl : decode [0b1111010111111010] = .ok (.brpl 63, []) := by decide
theorem test_decode_brvc : decode [0b1111011000000011] = .ok (.brvc (-64), []) := by decide
theorem test_decode_brvs : decode [0b1111000000000011] = .ok (.brvs 0, []) := by decide
theorem test_decode_jmp :
    decode [0b1001010101011100, 0b1011110011011110] = .ok (.jmp 0x2ABCDE, []) := by decide
theorem test_decode_rjmp : decode [0b1100100000000000] = .ok (.rjmp (-2048), []) := by decide
theorem test_decode_ijmp : decode [0b1001010000001001] = .ok (.ijmp, []) := by decide
theorem test_decode_ldi : decode [0b1110010101000101] = .ok (.ldi 20 0x55, []) := by decide
theorem test_decode_add : decode [0b0000111100000001] = .ok (.add 16 17, []) := by decide
theorem test_decode_adc : decode [0b0001111000001111] = .ok (.adc 0 31, []) := by decide
theorem test_decode_eor : decode [0b0010010000010010] = .ok (.eor 1 2, []) := by decide
theorem test_decode_out : decode [0b1011101100001000] = .ok (.out 0x18 16, []) := by decide
theorem test_decode_sen : decode [0b1001010000101000] = .ok (.sen, []) := by decide
theorem test_decode_sez : decode [0b1001010000011000] = .ok (.sez, []) := by decide

/-- The words section 2.17 refuses, and the names G8 gives three of them. -/
theorem test_decode_unlisted :
    ([0x0000, 0x9404, 0x9408, 0x9419, 0x9508, 0x9518, 0x9588, 0x95A8, 0xF404, 0xF800, 0xB000]
      : List Word).map decodeFirst = List.replicate 11 (.unlisted none) := by decide
theorem test_decode_named_only :
    decodeFirst 0x940E = .unlisted (some .call) ∧ decodeFirst 0x2011 = .unlisted (some .tst) ∧
    decodeFirst 0x9600 = .unlisted (some .adiw) := by decide

/-- Bytes: the low byte of a word comes first (R34). -/
theorem test_decode_bytes : decodeBytes [0x0C, 0x94, 0x04, 0x00] = .ok (.jmp 4, []) := by decide
theorem test_decode_odd_byte : decodeBytes [0x0C] = .error .oddByte := by decide
theorem test_decode_jmp_cut_off : decode [0x940C] = .error .wordMissing := by decide
theorem test_decodeTableWord_jmp : decodeTableWord 32 0xBCDE955C = some (.jmp 0x2ABCDE) := by decide

/-! ### One-register instructions (sections 2.1 to 2.11; SREG as a byte) -/

theorem test_clr_keeps_H_T_I_C : gives (.clr 16) 0x5A 0xFF 0x00 0xE3 = true := by decide
theorem test_inc_overflows : gives (.inc 16) 0x7F 0x00 0x80 0x0C = true := by decide
theorem test_inc_wraps_and_keeps_C : gives (.inc 16) 0xFF 0x01 0x00 0x03 = true := by decide
theorem test_dec_overflows : gives (.dec 16) 0x80 0x00 0x7F 0x18 = true := by decide
theorem test_dec_wraps_and_keeps_C : gives (.dec 16) 0x00 0x01 0xFF 0x15 = true := by decide
theorem test_com : gives (.com 16) 0x55 0x00 0xAA 0x15 = true := by decide
theorem test_neg_zero_has_no_borrow : gives (.neg 16) 0x00 0x00 0x00 0x02 = true := by decide
theorem test_neg_low_nibble_zero : gives (.neg 16) 0x10 0x20 0xF0 0x15 = true := by decide
theorem test_rol_takes_carry_in : gives (.rol 16) 0x80 0x01 0x01 0x19 = true := by decide
theorem test_rol_half_carry : gives (.rol 16) 0x08 0x01 0x11 0x20 = true := by decide
theorem test_ror_takes_carry_in : gives (.ror 16) 0x00 0x01 0x80 0x0C = true := by decide
theorem test_ror_keeps_H : gives (.ror 16) 0x01 0x20 0x00 0x3B = true := by decide
theorem test_lsl_overflows : gives (.lsl 16) 0x40 0x01 0x80 0x0C = true := by decide
theorem test_lsl_carries : gives (.lsl 16) 0xC0 0x00 0x80 0x15 = true := by decide
theorem test_lsr : gives (.lsr 16) 0x55 0x00 0x2A 0x19 = true := by decide
theorem test_lsr_keeps_H : gives (.lsr 16) 0x80 0x20 0x40 0x20 = true := by decide
theorem test_asr_holds_sign : gives (.asr 16) 0x81 0x00 0xC0 0x15 = true := by decide
theorem test_asr_even : gives (.asr 16) 0x80 0x00 0xC0 0x0C = true := by decide
theorem test_swap_keeps_flags : gives (.swap 16) 0x12 0xFF 0x21 0xFF = true := by decide

/-! ### Branches and jumps (sections 2.14, 2.15) -/

theorem test_brlo : branchesTo (.brlo (-3)) 0x01 0x00FE ∧ branchesTo (.brlo (-3)) 0xFE 0x0101 := by
  decide
theorem test_brsh : branchesTo (.brsh (-3)) 0xFE 0x00FE ∧ branchesTo (.brsh (-3)) 0x01 0x0101 := by
  decide
theorem test_breq : branchesTo (.breq 63) 0x02 0x0140 ∧ branchesTo (.breq 63) 0xFD 0x0101 := by
  decide
theorem test_brne : branchesTo (.brne (-64)) 0xFD 0x00C1 ∧ branchesTo (.brne (-64)) 0x02 0x0101 := by
  decide
theorem test_brmi : branchesTo (.brmi (-3)) 0x04 0x00FE ∧ branchesTo (.brmi (-3)) 0xFB 0x0101 := by
  decide
theorem test_brpl : branchesTo (.brpl (-3)) 0xFB 0x00FE ∧ branchesTo (.brpl (-3)) 0x04 0x0101 := by
  decide
theorem test_brvs : branchesTo (.brvs (-3)) 0x08 0x00FE ∧ branchesTo (.brvs (-3)) 0xF7 0x0101 := by
  decide
theorem test_brvc : branchesTo (.brvc (-3)) 0xF7 0x00FE ∧ branchesTo (.brvc (-3)) 0x08 0x0101 := by
  decide
theorem test_brne_wraps_16_bits :
    nextIs (exec (.brne (-3)) (narrow (small 0 0 0 0x0001 []))) (fun t => decide (t.pc = 0xFFFF))
      = true := by decide
theorem test_jmp_highest : nextIs (exec (.jmp 0x3FFFFF) (small 0 0 0 0 []))
    (fun t => decide (t.pc = 0x3FFFFF) && decide (t.cycles = 3)) = true := by decide
theorem test_jmp_too_wide :
    refusedAs (exec (.jmp 0x10000) (narrow (small 0 0 0 0 []))) .jmpTargetWiderThanPc = true := by
  decide
theorem test_rjmp_lowest : nextIs (exec (.rjmp (-2048)) (small 0 0 0 0x0900 []))
    (fun t => decide (t.pc = 0x0101)) = true := by decide
theorem test_rjmp_wraps_16_bits : nextIs (exec (.rjmp (-2048)) (narrow (small 0 0 0 0 [])))
    (fun t => decide (t.pc = 0xF801)) = true := by decide
theorem test_ijmp_clears_high_bits :
    nextIs (exec .ijmp (((small 0 0 0 0x2ABCDE []).writeReg 31 0x12).writeReg 30 0x34))
      (fun t => decide (t.pc = 0x001234)) = true := by decide

/-! ### Supplementary instructions (section 2.13) -/

theorem test_ldi : gives (.ldi 16 0x55) 0 0xFF 0x55 0xFF = true := by decide
theorem test_add_overflows : gives2 (.add 16 17) 0x7F 0x01 0x00 0x80 0x2C = true := by decide
theorem test_add_carries : gives2 (.add 16 17) 0x80 0x80 0x00 0x00 0x1B = true := by decide
theorem test_adc_carry_in : gives2 (.adc 16 17) 0xFF 0x00 0x01 0x00 0x23 = true := by decide
theorem test_adc_overflows : gives2 (.adc 16 17) 0x7F 0x00 0x01 0x80 0x2C = true := by decide
theorem test_eor_keeps_H_and_C : gives2 (.eor 16 17) 0x55 0xAA 0x21 0xFF 0x35 = true := by decide
theorem test_out : nextIs (exec (.out 0x18 16) (small 0xAA 0 0xFF 0 []))
    (fun t => decide (t.portB = 0xAA) && decide (t.ioTrace = [(0x18, 0xAA)]) &&
      decide (t.sreg.toByte = 0xFF)) = true := by decide
theorem test_out_to_sreg : refusedAs (exec (.out 0x3F 31) (small 0 0 0 0 [])) .outAddressNotPlain
    = true := by decide
theorem test_sen_keeps_S : gives .sen 0x00 0x1B 0x00 0x1F = true := by decide
theorem test_sez : gives .sez 0x00 0xFD 0x00 0xFF = true := by decide

/-! ### Steps, refusals and the end of a run (section 2.17, R203, R226) -/

theorem test_step_jmp : nextIs (step (small 0 0 0 0 [0x940C, 0x0004]))
    (fun t => decide (t.pc = 4)) = true := by decide
theorem test_step_second_word_runs_as_its_own :
    nextIs (step { small 0 0 0 0 [0x940C, 0x9513] with pc := 1 })
      (fun t => decide (t.readReg 17 = 1)) = true := by decide
theorem test_step_supplementary_refused :
    refusedAs (step { small 0 0 0 0 [0x0F01] with
      cfg := { Config.reference with admitSupplementary := false } }) .supplementaryNotAdmitted
      = true := by decide
theorem test_step_lsl_without_supplementary :
    nextIs (step { small 1 0 0 0 [0x0F00] with
      cfg := { Config.reference with admitSupplementary := false } })
      (fun t => decide (t.readReg 16 = 2)) = true := by decide
theorem test_step_jmp_in_last_word :
    refusedAs (step (small 0 0 0 0x3FFFFF [0x940C, 0])) .fetchOutsideProgramMemory = true := by decide
theorem test_step_after_reset_faults : faultsAs (step State.reset) .programWordNotLoaded = true := by
  decide
theorem test_step_runs_placed_word : nextIs (step (State.reset.withFetchWord 16 0x9513))
    (fun t => decide (t.readReg 17 = 1) && decide (t.cycles = 1)) = true := by decide
theorem test_run_over_does_not_fetch :
    (match runToEnd 1 { State.reset with cfg := { Config.reference with endPc := some 0 } } with
      | .over t => decide (t.pc = 0)
      | .running _ | .faulted _ | .refused _ => false) = true := by decide

theorem test_run_over_at_self_loop :
    (match runToEnd 5 (small 0 0 0 0x20 [0x9513, 0xCFFF]) with
      | .over t => decide (t.pc = 0x21) && decide (t.readReg 17 = 1) && decide (t.cycles = 1)
      | .running _ | .faulted _ | .refused _ => false) = true := by decide
/-- `RJMP 0` is no self-loop. -/
theorem test_run_goes_on :
    (match runToEnd 1 (small 0 0 0 0x20 [0xC000, 0x9513]) with
      | .running t => decide (t.pc = 0x21)
      | .over _ | .faulted _ | .refused _ => false) = true := by decide

/-! ### The assembler (section 1.2, R65 to R67) -/

theorem test_assemble_loop :
    assemble Config.reference 0
      ["LDI R16, 10 ;R16 = 10".toList, "AGAIN:ADD R20, R21".toList, "DEC R16".toList,
        "BRNE AGAIN".toList]
      = some [0xE00A, 0x0F45, 0x950A, 0xF7E9] := by decide
theorem test_assemble_forms :
    assemble Config.reference 2
      ["OUT PORTB, R16".toList, "L: JMP L".toList, "LDI R31,$FF".toList, "".toList, "IJMP".toList]
      = some [0xBB08, 0x940C, 0x0003, 0xEFFF, 0x9409] := by decide
theorem test_assemble_rejects_low_register :
    assemble Config.reference 0 ["LDI R5, 1".toList] = none := by decide

/-! ### Witnesses: the hypotheses of the statements can be met together -/

/-- The word of `INC R17` at the program counter. -/
def atInc : State := small 0x05 0x7F 0x02 0x0100 [0x9513]

/-- The two words of `JMP 4` at the program counter. -/
def atJmp : State := small 0 0 0 0x0100 [0x940C, 0x0004]

theorem witness_WellFormed_at_bounds :
    (Instr.brne (-64)).WellFormed ∧ (Instr.brvs 63).WellFormed ∧ (Instr.rjmp (-2048)).WellFormed ∧
    (Instr.rjmp 2047).WellFormed ∧ (Instr.ldi 16 0).WellFormed ∧ (Instr.ldi 31 255).WellFormed ∧
    (Instr.add 0 31).WellFormed ∧ (Instr.jmp 0x3FFFFF).WellFormed := by decide

theorem witness_EncodeUndoesDecode : decode [0x940C, 0x0004, 0x9513] = .ok (.jmp 4, [0x9513]) := by
  decide

/-- A word at the bounds of every range of the opcode map, which no two clauses share. -/
theorem witness_OpcodeMapByLeadingBits :
    ([0x0000, 0x0BFF, 0x1000, 0x1BFF, 0x2000, 0x23FF, 0x2800, 0x93FF, 0x9600, 0xB7FF, 0xD000, 0xDFFF,
      0xF800, 0xFFFF, 0xF004, 0xF7FF] : List Word).all
        (fun w => match decodeFirst w with
          | .unlisted _ => true
          | .whole _ | .jmpFirst _ => false) = true ∧
    decodeFirst 0xC000 = .whole (.rjmp 0) ∧ decodeFirst 0xCFFF = .whole (.rjmp (-1)) ∧
    decodeFirst 0xE000 = .whole (.ldi 16 0) ∧ decodeFirst 0xEFFF = .whole (.ldi 31 255) := by decide

/-- The word of `INC R17` is read at the program counter of `atInc`. -/
theorem witness_progRead_inc : atInc.progRead atInc.pc.toNat = .next 0x9513 := by rfl

theorem witness_StepRunsTheDecodedInstruction :
    (decode [0x9513] = .ok (.inc 17, []) ∧ WordsAt atInc atInc.pc.toNat [0x9513] ∧
      deviceRefuses atInc.cfg (.inc 17) = none) ∧
    (decode [0x940C, 0x0004] = .ok (.jmp 4, []) ∧ WordsAt atJmp atJmp.pc.toNat [0x940C, 0x0004] ∧
      deviceRefuses atJmp.cfg (.jmp 4) = none) :=
  ⟨⟨by decide, ⟨rfl, trivial⟩, by decide⟩, ⟨by decide, ⟨rfl, rfl, trivial⟩, by decide⟩⟩

theorem witness_StepRunsThePlacedInstruction :
    decodeTableWord 32 0x0004940C = some (.jmp 4) ∧
    State.reset.pc.toNat + (Instr.jmp 4).words ≤ State.reset.cfg.flashWords ∧
    deviceRefuses State.reset.cfg (.jmp 4) = none := by decide

theorem witness_LoadedProgramReadsBack :
    ([0x940C, 0x0004] : List Word)[1]? = some 0x0004 ∧
    3 + 1 < State.reset.cfg.flashWords ∧ 5 < 2 * 3 ∧ 2 * (3 + 2) ≤ 10 := by decide

/-- One state for each clause of the order of the checks. -/
theorem witness_StepRefusesInTheOrderOfTheChecks :
    ({ atInc with cfg := { Config.reference with flashWords := 0x0100 } } : State).cfg.flashWords
      ≤ atInc.pc.toNat ∧
    ((small 0 0 0 0 [0x0000]).progRead 0 = .next 0x0000 ∧ decodeFirst 0x0000 = .unlisted none) ∧
    ((small 0 0 0 0 [0x9428]).progRead 0 = .next 0x9428 ∧ decodeFirst 0x9428 = .whole .sen ∧
      Instr.sen.isSupplementary = true ∧
      ({ Config.reference with admitSupplementary := false } : Config).admitSupplementary = false) ∧
    (atJmp.progRead 0x0100 = .next 0x940C ∧ decodeFirst 0x940C = .jmpFirst 0 ∧
      ({ Config.reference with hasJmp := false } : Config).hasJmp = false) ∧
    ((small 0 0 0 0x3FFFFF [0x940C]).progRead 0x3FFFFF = .next 0x940C ∧
      Config.reference.hasJmp = true ∧
      Config.reference.flashWords ≤ (small 0 0 0 0x3FFFFF [0x940C]).pc.toNat + 1) :=
  ⟨by decide, ⟨rfl, by decide⟩, ⟨rfl, by decide, by decide, by decide⟩,
    ⟨rfl, by decide, by decide⟩, ⟨rfl, by decide, by decide⟩⟩

theorem witness_StepFaultsOnlyOnAnUnloadedWord : step State.reset = .fault .programWordNotLoaded := rfl

theorem witness_InitialStateHoldsInvariant : Config.reference.wf ∧ Memory.wf [(0, 0x13), (1, 0x95)] := by
  decide

/-- A state that meets the invariant and has something in its trace, and whose step goes on. -/
theorem witness_StepKeepsInvariant :
    Inv (atInc.ioWrite 0x18 0xAA) ∧ ∃ t, step (atInc.ioWrite 0x18 0xAA) = .next t := by
  refine ⟨⟨by decide, by decide, by decide, ?_, ?_⟩, _, rfl⟩
  · intro e he
    have h : e = (0x18, 0xAA) := List.mem_singleton.mp he
    subst h
    decide
  intro A v h
  have h' : (if (0x18 : IoAddr) = A then some (0xAA : Byte) else none) = some v := h
  by_cases e : (0x18 : IoAddr) = A
  · rw [if_pos e] at h'
    rw [State.readIo_ioWrite, if_pos e]
    exact Option.some.inj h'
  · rw [if_neg e] at h'
    cases h'

theorem witness_Reaches : (∃ t, Reaches atInc t ∧ t ≠ atInc) ∧ NoInterruptPremise atInc :=
  ⟨⟨_, ⟨1, rfl⟩, by decide⟩, rfl⟩

theorem witness_RunsOnlyExtendTheOutputTrace :
    ∃ t, Sys2Proof.core.run 2 (small 0xAA 0 0 0 [0xBB08, 0xBB08]) = .next t :=
  ⟨_, rfl⟩

/-- An instruction of each shape that completes, for the statements about a next state. -/
theorem witness_exec_completes :
    (∃ t, exec (.inc 17) atInc = .next t) ∧ (∃ t, exec (.brne 5) atInc = .next t) ∧
    (∃ t, exec (.jmp 4) atInc = .next t) ∧ (∃ t, exec (.out 0x18 16) atInc = .next t) ∧
    (∃ t, exec .sen atInc = .next t) := ⟨⟨_, rfl⟩, ⟨_, rfl⟩, ⟨_, rfl⟩, ⟨_, rfl⟩, ⟨_, rfl⟩⟩

theorem witness_EveryInstructionCompletes :
    (0x3FFFFF : Pc).toNat < atInc.cfg.pcWidth.words ∧ (0x18 : IoAddr) ∈ atInc.cfg.ioPlain := by decide

theorem witness_InstructionsStopOnlyAtTheNamedRefusals :
    exec (.jmp 0x10000) (narrow atInc) = .refused .jmpTargetWiderThanPc ∧
    exec (.out 0x3F 16) atInc = .refused .outAddressNotPlain := ⟨rfl, rfl⟩

theorem witness_StraightInstructionsGoToTheNextWord :
    (∃ t, exec (.inc 17) atInc = .next t) ∧ branchCondition (.inc 17) = none ∧
    (∀ k, Instr.inc 17 ≠ .jmp k) ∧ (∀ k, Instr.inc 17 ≠ .rjmp k) ∧ Instr.inc 17 ≠ .ijmp :=
  ⟨⟨_, rfl⟩, rfl, by simp, by simp, by simp⟩

theorem witness_SignFlagIsNXorV :
    (∃ t, exec (.inc 17) atInc = .next t) ∧ (Instr.inc 17).isSupplementary = false ∧
    Flag.N ∈ flagsWritten (.inc 17) := ⟨⟨_, rfl⟩, rfl, by decide⟩

/-- States that differ in S, H, T and I, and an instruction that writes H and S. -/
theorem witness_SHTAndIAreNeverRead_written :
    (∃ t, exec (.lsl 17) atInc = .next t) ∧
    (∃ u, exec (.lsl 17) (atInc.writeSreg (Sreg.ofByte 0xF2)) = .next u) ∧
    Flag.H ∈ flagsWritten (.lsl 17) ∧ Flag.S ∈ flagsWritten (.lsl 17) :=
  ⟨⟨_, rfl⟩, ⟨_, rfl⟩, by decide, by decide⟩

theorem witness_SHTAndIAreNeverRead :
    (Sreg.ofByte 0xF2).C = atInc.sreg.C ∧ (Sreg.ofByte 0xF2).Z = atInc.sreg.Z ∧
    (Sreg.ofByte 0xF2).N = atInc.sreg.N ∧ (Sreg.ofByte 0xF2).V = atInc.sreg.V ∧
    Sreg.ofByte 0xF2 ≠ atInc.sreg ∧ (∃ t, exec (.ror 17) atInc = .next t) ∧
    (∃ u, exec (.ror 17) (atInc.writeSreg (Sreg.ofByte 0xF2)) = .next u) :=
  ⟨by decide, by decide, by decide, by decide, by decide, ⟨_, rfl⟩, ⟨_, rfl⟩⟩

theorem witness_different_registers : (25 : Reg) ≠ 24 := by decide

theorem witness_GoesToNextWord : atInc.pc.toNat + 1 < atInc.cfg.pcWidth.words := by decide

/-- A branch taken and a branch not taken, at both ends of the range of displacements. -/
theorem witness_BranchRule :
    inBranchRange (-64) = true ∧ inBranchRange 63 = true ∧
    atInc.sreg.get .Z = true ∧ atInc.sreg.get .Z ≠ false := by decide

theorem witness_BranchReachIsSixtyFourWords :
    branchCondition (.brne (-64)) ≠ none ∧ (Instr.brne (-64)).WellFormed ∧
    63 ≤ atInc.pc.toNat ∧ atInc.pc.toNat + 64 < atInc.cfg.pcWidth.words ∧
    ∃ t, exec (.brne (-64)) atInc = .next t :=
  ⟨by decide, by decide, by decide, by decide, ⟨_, rfl⟩⟩

theorem witness_BranchReadsOneFlag :
    branchCondition (.brne 5) = some (.Z, false) ∧
    atInc.sreg.get .Z = (atInc.writeSreg (Sreg.ofByte 0xFF)).sreg.get .Z ∧
    (∃ t, exec (.brne 5) atInc = .next t) ∧
    (∃ u, exec (.brne 5) (atInc.writeSreg (Sreg.ofByte 0xFF)) = .next u) :=
  ⟨rfl, by decide, ⟨_, rfl⟩, ⟨_, rfl⟩⟩

/-- A counter of 1 and a counter of 0. -/
theorem witness_DecThenBrne :
    (small 1 0 0 0 []).readReg 16 = 1 ∧ (small 1 0 0 0 []).readReg 17 ≠ 1 := by decide

theorem witness_JmpGoesToItsAddress :
    (0xFFFF : Pc).toNat < (narrow atInc).cfg.pcWidth.words ∧
    (narrow atInc).cfg.pcWidth.words ≤ (0x10000 : Pc).toNat := by decide

theorem witness_RjmpRange : inRjmpRange (-2048) = true ∧ inRjmpRange 2047 = true := by decide

theorem witness_LabelDisplacement : 0x3FFFFF < atInc.cfg.pcWidth.words := by decide

theorem witness_LdiRegisters : 16 ≤ (16 : Reg).val ∧ 16 ≤ (31 : Reg).val := by decide

theorem witness_OutAddresses :
    (0x18 : IoAddr) ∈ atInc.cfg.ioPlain ∧ (0x18 : IoAddr) = atInc.cfg.portbAddr ∧
    (0x37 : IoAddr) ∈ atInc.cfg.ioPlain ∧ (0x38 : IoAddr) ∉ atInc.cfg.ioPlain ∧
    (0x3F : IoAddr) ∉ atInc.cfg.ioPlain := by decide

/-- `INC R17` with `END_PC` after it. -/
def beforeEnd : State := { atInc with cfg := { Config.reference with endPc := some 0x0101 } }

/-- A run that ends at `END_PC` after one step, and one that ends at the self-loop at once. -/
theorem witness_RunEndsAtTheFirstEndBoundary :
    (∃ t, runToEnd 3 beforeEnd = .over t) ∧
    ∃ t, runToEnd 3 (small 0 0 0 0x20 [0xCFFF]) = .over t := ⟨⟨_, rfl⟩, ⟨_, rfl⟩⟩

theorem witness_RunEndsAtTheFirstBoundaryAtEndPc :
    Inv beforeEnd ∧ 1 ≤ 3 ∧ ∃ t, FirstReaches (fun u => u.cfg.endPc = some u.pc) beforeEnd 1 t := by
  refine ⟨⟨by decide, by decide, by decide, ?_, ?_⟩, by decide, _, rfl, rfl, ?_⟩
  · exact fun e he => (List.not_mem_nil he).elim
  · intro A v h
    cases h
  · intro j u hj hu
    obtain rfl : j = 0 := by omega
    rw [← Host.Outcome.next.inj hu]
    decide

theorem witness_SelfLoop :
    (small 0 0 0 0x20 [0xCFFF]).pc.toNat < (small 0 0 0 0x20 [0xCFFF]).cfg.pcWidth.words ∧
    (small 0 0 0 0x20 [0xCFFF]).progRead 0x20 = .next 0xCFFF := ⟨by decide, rfl⟩

end Sys2Proof.Tests
end

/-! # Single-register arithmetic and logic (R102 to R104, R107, R109, R111)

The word layout of format RD, the frame of `State.finish`, the flags of a result read as numbers,
and the result of each operation as a number; each obligation is assembled from these. -/

namespace Sys2Proof.Machine

/-! ### The words of format RD (R52, R60 orders 5 to 12) -/

/-- The instructions of format RD, `1001 010d dddd ffff`, each with its four bits `ffff`. -/
def formatRD : List (Nat × (Reg → Instr)) :=
  [(0x0, .com), (0x1, .neg), (0x2, .swap), (0x3, .inc), (0x5, .asr), (0x6, .lsr), (0x7, .ror),
    (0xA, .dec)]

/-- A word of format RD decodes to its instruction: no earlier test of R60 (IJMP, SEZ, SEN, JMP)
takes any of the eight times 32 words. -/
theorem decode_formatRD : ∀ p ∈ formatRD, ∀ d : Reg,
    decode [BitVec.ofNat 16 (0x9400 + p.1 + 16 * d.val)] = .ok (p.2 d, []) := by decide

/-! ### The frame of a register instruction (R8, R100) -/

/-- An instruction that ends in `finish` keeps everything but its destination and its flags. -/
theorem State.finish_oneWordFrame {s : State} {written : List Flag} {f : Sreg} (d : Reg) (R : Byte)
    (hf : ∀ g, g ∉ written → f.get g = s.sreg.get g) :
    OneWordFrame [d] written s (s.finish d R f) where
  regs j hj := by
    have hne : d ≠ j := fun e => hj (List.mem_singleton.mpr e.symm)
    rw [State.readReg_finish, if_neg hne]
  flags := hf
  program := ⟨fun _ => rfl, rfl, rfl⟩
  io := ⟨fun _ => rfl, rfl⟩
  next hlt := by rw [State.finish_pc, State.sequentialTarget_toNat, Nat.mod_eq_of_lt hlt]

/-- The formulas of R100 write S, V, N and Z only. -/
theorem Sreg.get_withResult_of_notMem {g : Flag} (f : Sreg) (R : Byte) (v : Bool)
    (hg : g ∉ [Flag.S, .V, .N, .Z]) : (f.withResult R v).get g = f.get g := by
  cases g with
  | S | V | N | Z => simp at hg
  | C | H | T | I => rfl

/-- With C replaced as well, as COM and the right shifts do, H, T and I are still kept. -/
theorem Sreg.get_withResult_carry_of_notMem {g : Flag} (f : Sreg) (R : Byte) (v c : Bool)
    (hg : g ∉ [Flag.S, .V, .N, .Z, .C]) : Sreg.get { f.withResult R v with C := c } g = f.get g := by
  cases g with
  | S | V | N | Z | C => simp at hg
  | H | T | I => rfl

/-! ### The flags of a result, as numbers (R100) -/

/-- Bit 7 of a byte is its sign. -/
theorem getLsbD_seven_iff (R : Byte) : R.getLsbD 7 = true ↔ 128 ≤ R.toNat := by
  have h : R.msb = decide (128 ≤ R.toNat) := BitVec.msb_eq_decide R
  rw [← decide_eq_true_iff (p := 128 ≤ R.toNat), ← h, BitVec.msb_eq_getLsbD_last]

theorem Sreg.withResult_resultFlags (f : Sreg) (R : Byte) (v : Bool) :
    ResultFlags R (f.withResult R v) := by
  refine ⟨getLsbD_seven_iff R, ?_, rfl⟩
  rw [Sreg.withResult_Z, decide_eq_true_iff]
  exact BitVec.toNat_inj (y := 0x00).symm

/-- `ResultFlags` does not look at C. -/
theorem Sreg.withResult_carry_resultFlags (f : Sreg) (R : Byte) (v c : Bool) :
    ResultFlags R { f.withResult R v with C := c } := f.withResult_resultFlags R v

/-! ### The results, as numbers -/

theorem incResult_toNat (rd : Byte) : (incResult rd).toNat = (rd.toNat + 1) % 256 :=
  BitVec.toNat_add rd 1

theorem decResult_toNat (rd : Byte) : (decResult rd).toNat = (rd.toNat + 255) % 256 := by
  have h : (decResult rd).toNat = (255 + rd.toNat) % 256 := BitVec.toNat_sub rd 1
  rw [h, Nat.add_comm]

theorem comResult_toNat_add (rd : Byte) : (comResult rd).toNat + rd.toNat = 0xFF := by
  have h : (comResult rd).toNat = (256 - rd.toNat + 0xFF) % 256 := BitVec.toNat_sub 0xFF rd
  have hlt := rd.isLt
  omega

theorem incResult_eq_iff (rd : Byte) : incResult rd = 0x80 ↔ rd.toNat = 0x7F := by
  have h : incResult rd = 0x80 ↔ (incResult rd).toNat = 128 := BitVec.toNat_inj (y := 0x80).symm
  rw [h, incResult_toNat]
  omega

theorem decResult_eq_iff (rd : Byte) : decResult rd = 0x7F ↔ rd.toNat = 0x80 := by
  have h : decResult rd = 0x7F ↔ (decResult rd).toNat = 127 := BitVec.toNat_inj (y := 0x7F).symm
  rw [h, decResult_toNat]
  omega

/-- Two fields side by side, as a number. -/
theorem toNat_append_eq_add {m n : Nat} (x : BitVec m) (y : BitVec n) :
    (x ++ y).toNat = 2 ^ n * x.toNat + y.toNat := by
  rw [BitVec.toNat_append, ← Nat.shiftLeft_add_eq_or_of_lt y.isLt, Nat.shiftLeft_eq, Nat.mul_comm]

theorem shiftRightIn_toNat (b : Bool) (rd : Byte) :
    (shiftRightIn b rd).toNat = 128 * b.toNat + rd.toNat / 2 := by
  have h : (shiftRightIn b rd).toNat = 2 ^ 7 * (BitVec.ofBool b).toNat + _ :=
    toNat_append_eq_add _ _
  have hlt := rd.isLt
  rw [h, BitVec.toNat_ofBool, BitVec.extractLsb'_toNat, Nat.shiftRight_eq_div_pow]
  omega

/-- With the bit that is shifted out, a right shift only moves its nine bits. -/
theorem two_mul_shiftRightIn_add (b : Bool) (rd : Byte) :
    2 * (shiftRightIn b rd).toNat + (rd.getLsbD 0).toNat = 256 * b.toNat + rd.toNat := by
  have hout : (rd.getLsbD 0).toNat = rd.toNat / 2 ^ 0 % 2 := Nat.toNat_testBit _ _
  rw [shiftRightIn_toNat, hout]
  omega

theorem shiftRightIn_getLsbD_seven (b : Bool) (rd : Byte) : (shiftRightIn b rd).getLsbD 7 = b := by
  have h : (shiftRightIn b rd).getLsbD 7 = (BitVec.ofBool b).getLsbD 0 := BitVec.getLsbD_append
  exact h.trans (BitVec.getLsbD_ofBool b 0)

theorem swapResult_toNat (rd : Byte) :
    (swapResult rd).toNat = 16 * (rd.toNat % 16) + rd.toNat / 16 := by
  have h : (swapResult rd).toNat = 2 ^ 4 * (rd.extractLsb' 0 4).toNat + _ :=
    toNat_append_eq_add _ _
  have hlt := rd.isLt
  simp only [h, BitVec.extractLsb'_toNat, Nat.shiftRight_eq_div_pow]
  omega

/-! ### The obligations -/

/-- Settles O22: V is "the result is 0x80", which for INC is "Rd was 0x7F". -/
theorem incAddsOneAndSetsFlags : Obligations.IncAddsOneAndSetsFlags := by
  intro d s
  refine ⟨decode_formatRD (0x3, .inc) (by simp [formatRD]) d, _, rfl,
    s.finish_oneWordFrame d _ fun _ => Sreg.get_withResult_of_notMem _ _ _, ?_⟩
  rw [State.readReg_finish_same]
  exact ⟨incResult_toNat _, Sreg.withResult_resultFlags _ _ _,
    decide_eq_true_iff.trans (incResult_eq_iff _)⟩

/-- Settles O23: V is "the result is 0x7F", which for DEC is "Rd was 0x80". -/
theorem decSubtractsOneAndSetsFlags : Obligations.DecSubtractsOneAndSetsFlags := by
  intro d s
  refine ⟨decode_formatRD (0xA, .dec) (by simp [formatRD]) d, _, rfl,
    s.finish_oneWordFrame d _ fun _ => Sreg.get_withResult_of_notMem _ _ _, ?_⟩
  rw [State.readReg_finish_same]
  exact ⟨decResult_toNat _, Sreg.withResult_resultFlags _ _ _,
    decide_eq_true_iff.trans (decResult_eq_iff _)⟩

/-- Settles O24: the result is `0xFF - Rd`; V and C are constants. -/
theorem comInvertsAndSetsCarry : Obligations.ComInvertsAndSetsCarry := by
  intro d s
  refine ⟨decode_formatRD (0x0, .com) (by simp [formatRD]) d, _, rfl,
    s.finish_oneWordFrame d _ fun _ => Sreg.get_withResult_carry_of_notMem _ _ _ _, ?_⟩
  rw [State.readReg_finish_same]
  exact ⟨comResult_toNat_add _, Sreg.withResult_carry_resultFlags _ _ _ _, rfl, rfl⟩

/-- Settles O27: the right shift with the old C as the bit shifted in. -/
theorem rorRotatesRightThroughCarry : Obligations.RorRotatesRightThroughCarry := by
  intro d s
  refine ⟨decode_formatRD (0x7, .ror) (by simp [formatRD]) d, _, rfl,
    s.finish_oneWordFrame d _ fun _ => Sreg.get_withResult_carry_of_notMem _ _ _ _, ?_⟩
  rw [State.readReg_finish_same]
  exact ⟨two_mul_shiftRightIn_add _ _, Sreg.withResult_carry_resultFlags _ _ _ _, rfl⟩

/-- Settles O29: the right shift with 0 shifted in, so that N is 0 too. -/
theorem lsrHalvesUnsigned : Obligations.LsrHalvesUnsigned := by
  intro d s
  refine ⟨decode_formatRD (0x6, .lsr) (by simp [formatRD]) d, _, rfl,
    s.finish_oneWordFrame d _ fun _ => Sreg.get_withResult_carry_of_notMem _ _ _ _, ?_⟩
  rw [State.readReg_finish_same]
  have hval := two_mul_shiftRightIn_add false (s.readReg d)
  rw [Bool.toNat_false, Nat.mul_zero, Nat.zero_add] at hval
  exact ⟨hval, Sreg.withResult_carry_resultFlags _ _ _ _, shiftRightIn_getLsbD_seven false _, rfl⟩

/-- Settles O31: the result is 16 times the low nibble plus the high one; SREG is kept. -/
theorem swapExchangesNibbles : Obligations.SwapExchangesNibbles := by
  intro d s
  refine ⟨decode_formatRD (0x2, .swap) (by simp [formatRD]) d, _, rfl,
    s.finish_oneWordFrame d _ fun _ _ => rfl, ?_⟩
  rw [State.readReg_finish_same, swapResult_toNat]
  have hlt := (s.readReg d).isLt
  constructor <;> omega

end Sys2Proof.Machine

/-! # The decoder and the encoder

The tests of R60, the fields of a word and the words of the encoder, each as numbers; then one lemma
per format in either direction. -/

namespace Sys2Proof

open Sys2Proof.Machine (toNat_append_eq_add formatRD decode_formatRD)

/-! ### The tests of R60, as numbers -/

/-- A conjunction with a mask, its bits from `k` up and its bits below `k` apart. -/
theorem and_split (n m k : Nat) :
    n &&& m = 2 ^ k * (n / 2 ^ k &&& m / 2 ^ k) + (n % 2 ^ k &&& m % 2 ^ k) := by
  rw [← Nat.and_div_two_pow, ← Nat.and_mod_two_pow, Nat.div_add_mod]

/-- A test whose mask has every bit from `k` up, and the bits `low` below `k`. -/
theorem fits_iff_of_high {w mask pattern : Word} (k low : Nat)
    (hhigh : mask.toNat / 2 ^ k = 2 ^ (16 - k) - 1) (hlow : mask.toNat % 2 ^ k = low)
    (hk : k ≤ 16) :
    fits w mask pattern = true ↔
      2 ^ k * (w.toNat / 2 ^ k) + (w.toNat % 2 ^ k &&& low) = pattern.toNat := by
  have hw : w.toNat / 2 ^ k < 2 ^ (16 - k) := by
    rw [Nat.div_lt_iff_lt_mul (Nat.two_pow_pos k), ← Nat.pow_add, Nat.sub_add_cancel hk]
    exact w.isLt
  rw [fits, beq_iff_eq, ← BitVec.toNat_inj, BitVec.toNat_and, and_split _ _ k, hhigh, hlow,
    Nat.and_two_pow_sub_one_of_lt_two_pow hw]

/-- The six masks of R60. -/
theorem fits_iff (w pattern : Word) :
    (fits w 0xFC00 pattern = true ↔ 1024 * (w.toNat / 1024) = pattern.toNat) ∧
    (fits w 0xF800 pattern = true ↔ 2048 * (w.toNat / 2048) = pattern.toNat) ∧
    (fits w 0xF000 pattern = true ↔ 4096 * (w.toNat / 4096) = pattern.toNat) ∧
    (fits w 0xFC07 pattern = true ↔ 1024 * (w.toNat / 1024) + w.toNat % 8 = pattern.toNat) ∧
    (fits w 0xFE0F pattern = true ↔ 512 * (w.toNat / 512) + w.toNat % 16 = pattern.toNat) ∧
    (fits w 0xFE0E pattern = true ↔
      512 * (w.toNat / 512) + 2 * (w.toNat / 2 % 8) = pattern.toNat) := by
  have low (k j : Nat) (h : j ≤ k) : w.toNat % 2 ^ k &&& 2 ^ j - 1 = w.toNat % 2 ^ j := by
    rw [Nat.and_two_pow_sub_one_eq_mod, Nat.mod_mod_of_dvd _ (Nat.pow_dvd_pow 2 h)]
  have jmpLow : w.toNat % 2 ^ 9 &&& 14 = 2 * (w.toNat / 2 % 8) := by
    have e := and_split (w.toNat % 2 ^ 9) 14 1
    have e' := Nat.and_two_pow_sub_one_eq_mod (w.toNat % 2 ^ 9 / 2) 3
    simp only [Nat.reducePow, Nat.reduceDiv, Nat.reduceMod, Nat.reduceSub, Nat.and_zero] at e e' ⊢
    omega
  refine ⟨?_, ?_, ?_, ?_, ?_, ?_⟩
  · rw [fits_iff_of_high 10 0 rfl rfl (by decide), Nat.and_zero]; rfl
  · rw [fits_iff_of_high 11 0 rfl rfl (by decide), Nat.and_zero]; rfl
  · rw [fits_iff_of_high 12 0 rfl rfl (by decide), Nat.and_zero]; rfl
  · rw [fits_iff_of_high 10 (2 ^ 3 - 1) rfl rfl (by decide), low 10 3 (by decide)]; rfl
  · rw [fits_iff_of_high 9 (2 ^ 4 - 1) rfl rfl (by decide), low 9 4 (by decide)]; rfl
  · rw [fits_iff_of_high 9 14 rfl rfl (by decide), jmpLow]; rfl

/-! ### The fields of a word, as numbers (R52, R56 to R59) -/

theorem extractLsb'_toNat_eq (w : Word) (start len : Nat) :
    (w.extractLsb' start len).toNat = w.toNat / 2 ^ start % 2 ^ len := by
  rw [BitVec.extractLsb'_toNat, Nat.shiftRight_eq_div_pow]

theorem fieldD_val (w : Word) : (fieldD w).val = w.toNat / 16 % 32 := extractLsb'_toNat_eq w 4 5

theorem fieldR_val (w : Word) : (fieldR w).val = 16 * (w.toNat / 512 % 2) + w.toNat % 16 := by
  have h : (fieldR w).val = _ := toNat_append_eq_add (w.extractLsb' 9 1) (w.extractLsb' 0 4)
  simp only [h, extractLsb'_toNat_eq]
  omega

theorem fieldHighD_val (w : Word) : (fieldHighD w).val = 16 + w.toNat / 16 % 16 :=
  congrArg (16 + ·) (extractLsb'_toNat_eq w 4 4)

theorem fieldK8_toNat (w : Word) :
    (fieldK8 w).toNat = 16 * (w.toNat / 256 % 16) + w.toNat % 16 := by
  have h : (fieldK8 w).toNat = _ := toNat_append_eq_add (w.extractLsb' 8 4) (w.extractLsb' 0 4)
  simp only [h, extractLsb'_toNat_eq]
  omega

theorem fieldA_val (w : Word) : (fieldA w).val = 16 * (w.toNat / 512 % 4) + w.toNat % 16 := by
  have h : (fieldA w).val = _ := toNat_append_eq_add (w.extractLsb' 9 2) (w.extractLsb' 0 4)
  simp only [h, extractLsb'_toNat_eq]
  omega

theorem fieldJmpHigh_toNat (w : Word) :
    (fieldJmpHigh w).toNat = 2 * (w.toNat / 16 % 32) + w.toNat % 2 := by
  have h : (fieldJmpHigh w).toNat = _ := toNat_append_eq_add (w.extractLsb' 4 5) (w.extractLsb' 0 1)
  simp only [h, extractLsb'_toNat_eq]
  omega

/-! ### The words of the encoder, as numbers (R52, R54, R58, R59) -/

theorem encodeRD_toNat (d : Reg) (f : BitVec 4) :
    (encodeRD d f).toNat = 0x9400 + 16 * d.val + f.toNat := by
  have hd := d.isLt
  simp only [encodeRD, regBits, toNat_append_eq_add, BitVec.toNat_ofNat]
  omega

theorem encodeRR_toNat (op : BitVec 6) (d r : Reg) :
    (encodeRR op d r).toNat = 1024 * op.toNat + 512 * (r.val / 16) + 16 * d.val + r.val % 16 := by
  have hd := d.isLt
  have hr := r.isLt
  simp only [encodeRR, regBits, toNat_append_eq_add, BitVec.extractLsb'_toNat,
    Nat.shiftRight_eq_div_pow, BitVec.toNat_ofNat]
  omega

theorem encodeBR_toNat (s : BitVec 1) (k : Int) (b : BitVec 3) :
    (encodeBR s k b).toNat =
      0xF000 + 1024 * s.toNat + 8 * (BitVec.ofInt 7 k).toNat + b.toNat := by
  simp only [encodeBR, toNat_append_eq_add, BitVec.toNat_ofNat]
  omega

/-! ### What a first word decodes to, by its leading and its low bits (R60, R61) -/

/-- The instructions of formats RR and RA: the six leading bits, the name for equal registers, and
the name for different ones. -/
def formatRR : List (Nat × (Reg → Instr) × (Reg → Reg → Instr)) :=
  [(3, .lsl, .add), (7, .rol, .adc), (9, .clr, .eor)]

/-- The instructions of format BR: the six leading bits and the three low bits. -/
def formatBR : List (Nat × Nat × (Int → Instr)) :=
  [(60, 0, .brlo), (60, 1, .breq), (60, 2, .brmi), (60, 3, .brvs),
    (61, 0, .brsh), (61, 1, .brne), (61, 2, .brpl), (61, 3, .brvc)]

theorem decodeFirst_formatRR (w : Word) : ∀ p ∈ formatRR, w.toNat / 1024 = p.1 →
    decodeFirst w =
      .whole (if fieldD w = fieldR w then p.2.1 (fieldD w) else p.2.2 (fieldD w) (fieldR w)) := by
  simp only [formatRR, List.forall_mem_cons, List.not_mem_nil, false_implies, implies_true,
    and_true, decodeFirst, fits_iff, ← BitVec.toNat_inj, BitVec.reduceToNat]
  refine ⟨fun h => ?_, fun h => ?_, fun h => ?_⟩ <;>
    simp (disch := omega) only [↓if_pos, ↓if_neg]

theorem decodeFirst_formatBR (w : Word) : ∀ p ∈ formatBR, w.toNat / 1024 = p.1 →
    w.toNat % 8 = p.2.1 → decodeFirst w = .whole (p.2.2 (fieldK7 w)) := by
  simp only [formatBR, List.forall_mem_cons, List.not_mem_nil, false_implies, implies_true,
    and_true, decodeFirst, fits_iff, ← BitVec.toNat_inj, BitVec.reduceToNat]
  refine ⟨fun h h' => ?_, fun h h' => ?_, fun h h' => ?_, fun h h' => ?_, fun h h' => ?_,
    fun h h' => ?_, fun h h' => ?_, fun h h' => ?_⟩ <;>
    simp (disch := omega) only [↓if_pos, ↓if_neg]

theorem decodeFirst_jmp {w : Word} (h : w.toNat / 512 = 74) (h' : w.toNat / 2 % 8 = 6) :
    decodeFirst w = .jmpFirst (fieldJmpHigh w) := by
  simp only [decodeFirst, fits_iff, ← BitVec.toNat_inj, BitVec.reduceToNat]
  simp (disch := omega) only [↓if_pos, ↓if_neg]

theorem decodeFirst_rjmp {w : Word} (h : w.toNat / 4096 = 12) :
    decodeFirst w = .whole (.rjmp (fieldK12 w)) := by
  simp only [decodeFirst, fits_iff, ← BitVec.toNat_inj, BitVec.reduceToNat]
  simp (disch := omega) only [↓if_pos, ↓if_neg]

theorem decodeFirst_ldi {w : Word} (h : w.toNat / 4096 = 14) :
    decodeFirst w = .whole (.ldi (fieldHighD w) (fieldK8 w)) := by
  simp only [decodeFirst, fits_iff, ← BitVec.toNat_inj, BitVec.reduceToNat]
  simp (disch := omega) only [↓if_pos, ↓if_neg]

theorem decodeFirst_out {w : Word} (h : w.toNat / 2048 = 23) :
    decodeFirst w = .whole (.out (fieldA w) (fieldD w)) := by
  simp only [decodeFirst, fits_iff, ← BitVec.toNat_inj, BitVec.reduceToNat]
  simp (disch := omega) only [↓if_pos, ↓if_neg]

theorem decodeFirst_unlisted {w : Word}
    (h : w.toNat < 0x0C00 ∨ (0x1000 ≤ w.toNat ∧ w.toNat < 0x1C00) ∨
        (0x2000 ≤ w.toNat ∧ w.toNat < 0x2400) ∨ (0x2800 ≤ w.toNat ∧ w.toNat < 0x9400) ∨
        (0x9600 ≤ w.toNat ∧ w.toNat < 0xB800) ∨ (0xD000 ≤ w.toNat ∧ w.toNat < 0xE000) ∨
        0xF800 ≤ w.toNat ∨ (0xF000 ≤ w.toNat ∧ w.toNat / 4 % 2 = 1)) :
    decodeFirst w = .unlisted (namedOnly w) := by
  simp only [decodeFirst, fits_iff, ← BitVec.toNat_inj, BitVec.reduceToNat]
  simp (disch := omega) only [↓if_neg]

/-! ### The words of the other formats, as numbers (R52, R58, R59) -/

/-- The word of RJMP. -/
def encodeRJ (k : Int) : Word := 0b1100#4 ++ BitVec.ofInt 12 k

/-- The word of LDI. -/
def encodeRI (d : Reg) (K : Byte) : Word :=
  0b1110#4 ++ K.extractLsb' 4 4 ++ BitVec.ofNat 4 (d.val - 16) ++ K.extractLsb' 0 4

/-- The word of OUT. -/
def encodeIO (A : IoAddr) (r : Reg) : Word :=
  0b10111#5 ++ (ioBits A).extractLsb' 4 2 ++ regBits r ++ (ioBits A).extractLsb' 0 4

/-- The first word of JMP. -/
def encodeJmpFirst (k : Pc) : Word :=
  0b1001010#7 ++ k.extractLsb' 17 5 ++ 0b110#3 ++ k.extractLsb' 16 1

theorem encode_rjmp (k : Int) : encode (.rjmp k) = [encodeRJ k] := rfl
theorem encode_ldi (d : Reg) (K : Byte) : encode (.ldi d K) = [encodeRI d K] := rfl
theorem encode_out (A : IoAddr) (r : Reg) : encode (.out A r) = [encodeIO A r] := rfl
theorem encode_jmp (k : Pc) : encode (.jmp k) = [encodeJmpFirst k, k.extractLsb' 0 16] := rfl

theorem encodeRJ_toNat (k : Int) : (encodeRJ k).toNat = 0xC000 + (BitVec.ofInt 12 k).toNat := by
  rw [encodeRJ, toNat_append_eq_add]; rfl

theorem encodeRI_toNat (d : Reg) (K : Byte) :
    (encodeRI d K).toNat = 0xE000 + 256 * (K.toNat / 16) + 16 * (d.val - 16) + K.toNat % 16 := by
  have hd := d.isLt
  have hK := K.isLt
  simp only [encodeRI, toNat_append_eq_add, BitVec.extractLsb'_toNat, Nat.shiftRight_eq_div_pow,
    BitVec.toNat_ofNat]
  omega

theorem encodeIO_toNat (A : IoAddr) (r : Reg) :
    (encodeIO A r).toNat = 0xB800 + 512 * (A.val / 16) + 16 * r.val + A.val % 16 := by
  have hA := A.isLt
  have hr := r.isLt
  simp only [encodeIO, ioBits, regBits, toNat_append_eq_add, BitVec.extractLsb'_toNat,
    Nat.shiftRight_eq_div_pow, BitVec.toNat_ofNat]
  omega

theorem encodeJmpFirst_toNat (k : Pc) :
    (encodeJmpFirst k).toNat = 0x940C + 16 * (k.toNat / 131072) + k.toNat / 65536 % 2 := by
  have hk := k.isLt
  simp only [encodeJmpFirst, toNat_append_eq_add, BitVec.extractLsb'_toNat,
    Nat.shiftRight_eq_div_pow, BitVec.toNat_ofNat]
  omega

theorem jmpSecond_toNat (k : Pc) : (k.extractLsb' 0 16).toNat = k.toNat % 65536 :=
  BitVec.extractLsb'_toNat 0 16 k

/-! ### Displacements in two's complement (R57) -/

/-- A number inside the range of `n` bits is what its `n` bits say. -/
theorem toInt_ofInt_of_inRange {n : Nat} {k : Int} (h : -(2 ^ n : Nat) ≤ k)
    (h' : k < (2 ^ n : Nat)) :
    (BitVec.ofInt (n + 1) k).toInt = k := by
  rw [BitVec.toInt_ofInt]
  exact Int.bmod_eq_of_le (by rw [Nat.pow_succ]; omega) (by rw [Nat.pow_succ]; omega)

theorem toInt_ofInt_of_inBranchRange {k : Int} (h : inBranchRange k = true) :
    (BitVec.ofInt 7 k).toInt = k := by
  simp only [inBranchRange, Bool.and_eq_true, decide_eq_true_iff] at h
  exact toInt_ofInt_of_inRange (n := 6) (by omega) (by omega)

theorem toInt_ofInt_of_inRjmpRange {k : Int} (h : inRjmpRange k = true) :
    (BitVec.ofInt 12 k).toInt = k := by
  simp only [inRjmpRange, Bool.and_eq_true, decide_eq_true_iff] at h
  exact toInt_ofInt_of_inRange (n := 11) (by omega) (by omega)

theorem fieldK7_inBranchRange (w : Word) : inBranchRange (fieldK7 w) = true := by
  have hlo : -64 ≤ fieldK7 w := BitVec.le_toInt _
  have hhi : fieldK7 w < 64 := BitVec.toInt_lt
  simp only [inBranchRange, Bool.and_eq_true, decide_eq_true_iff]
  omega

theorem fieldK12_inRjmpRange (w : Word) : inRjmpRange (fieldK12 w) = true := by
  have hlo : -2048 ≤ fieldK12 w := BitVec.le_toInt _
  have hhi : fieldK12 w < 2048 := BitVec.toInt_lt
  simp only [inRjmpRange, Bool.and_eq_true, decide_eq_true_iff]
  omega

/-! ### The fields of an encoded word -/

theorem fieldD_encodeRR (op : BitVec 6) (d r : Reg) : fieldD (encodeRR op d r) = d := by
  rw [Fin.ext_iff, fieldD_val, encodeRR_toNat]
  omega

theorem fieldR_encodeRR (op : BitVec 6) (d r : Reg) : fieldR (encodeRR op d r) = r := by
  rw [Fin.ext_iff, fieldR_val, encodeRR_toNat]
  omega

theorem fieldK7_encodeBR {k : Int} (s : BitVec 1) (b : BitVec 3) (h : inBranchRange k = true) :
    fieldK7 (encodeBR s k b) = k := by
  have e : (encodeBR s k b).extractLsb' 3 7 = BitVec.ofInt 7 k := by
    rw [← BitVec.toNat_inj, extractLsb'_toNat_eq, encodeBR_toNat]
    omega
  rw [fieldK7, e, toInt_ofInt_of_inBranchRange h]

/-! ### Decoding an encoded word, format by format -/

/-- A word that decodes on its own decodes before any other words. -/
theorem decode_cons_of_decodeFirst {w : Word} {i : Instr} (h : decodeFirst w = .whole i)
    (ws : List Word) : decode (w :: ws) = .ok (i, ws) := by
  rw [decode, h]

theorem decodeFirst_of_decode_singleton {w : Word} {i : Instr} (h : decode [w] = .ok (i, [])) :
    decodeFirst w = .whole i := by
  cases hw : decodeFirst w with
  | whole j => simp only [decode, hw] at h; cases h; rfl
  | jmpFirst hi => simp [decode, hw] at h
  | unlisted name => simp [decode, hw] at h

/-- A word with the value `n` is the word of the number `n`. -/
theorem ofNat_eq_of_toNat {w : Word} {n : Nat} (h : w.toNat = n) : BitVec.ofNat 16 n = w := by
  rw [← h, BitVec.ofNat_toNat, BitVec.setWidth_eq]

theorem decodeFirst_encodeRD (d : Reg) (f : BitVec 4) (mk : Reg → Instr)
    (h : (f.toNat, mk) ∈ formatRD) : decodeFirst (encodeRD d f) = .whole (mk d) := by
  have e : BitVec.ofNat 16 (0x9400 + f.toNat + 16 * d.val) = encodeRD d f :=
    ofNat_eq_of_toNat (by rw [encodeRD_toNat]; omega)
  exact decodeFirst_of_decode_singleton (e ▸ decode_formatRD _ h d)

theorem decodeFirst_encodeRR_same (op : BitVec 6) (d : Reg) (mk : Reg → Instr)
    (mk' : Reg → Reg → Instr) (h : (op.toNat, mk, mk') ∈ formatRR) :
    decodeFirst (encodeRR op d d) = .whole (mk d) := by
  have hlead : (encodeRR op d d).toNat / 1024 = op.toNat := by rw [encodeRR_toNat]; omega
  rw [decodeFirst_formatRR _ _ h hlead, fieldD_encodeRR, fieldR_encodeRR, if_pos rfl]

theorem decodeFirst_encodeRR_ne (op : BitVec 6) {d r : Reg} (hne : d ≠ r) (mk : Reg → Instr)
    (mk' : Reg → Reg → Instr) (h : (op.toNat, mk, mk') ∈ formatRR) :
    decodeFirst (encodeRR op d r) = .whole (mk' d r) := by
  have hlead : (encodeRR op d r).toNat / 1024 = op.toNat := by rw [encodeRR_toNat]; omega
  rw [decodeFirst_formatRR _ _ h hlead, fieldD_encodeRR, fieldR_encodeRR, if_neg hne]

theorem decodeFirst_encodeBR (s : BitVec 1) (b : BitVec 3) {k : Int} (hk : inBranchRange k = true)
    (mk : Int → Instr) (h : (60 + s.toNat, b.toNat, mk) ∈ formatBR) :
    decodeFirst (encodeBR s k b) = .whole (mk k) := by
  have hlead : (encodeBR s k b).toNat / 1024 = 60 + s.toNat := by rw [encodeBR_toNat]; omega
  have hlow : (encodeBR s k b).toNat % 8 = b.toNat := by rw [encodeBR_toNat]; omega
  rw [decodeFirst_formatBR _ _ h hlead hlow, fieldK7_encodeBR s b hk]

theorem decodeFirst_encodeRJ {k : Int} (hk : inRjmpRange k = true) :
    decodeFirst (encodeRJ k) = .whole (.rjmp k) := by
  have hw := encodeRJ_toNat k
  have hfield : (encodeRJ k).extractLsb' 0 12 = BitVec.ofInt 12 k := by
    rw [← BitVec.toNat_inj, extractLsb'_toNat_eq, hw]; omega
  rw [decodeFirst_rjmp (by omega), fieldK12, hfield, toInt_ofInt_of_inRjmpRange hk]

theorem decodeFirst_encodeRI {d : Reg} (hd : 16 ≤ d.val) (K : Byte) :
    decodeFirst (encodeRI d K) = .whole (.ldi d K) := by
  have hw := encodeRI_toNat d K
  have hfieldD : fieldHighD (encodeRI d K) = d := by rw [Fin.ext_iff, fieldHighD_val]; omega
  have hfieldK : fieldK8 (encodeRI d K) = K := by rw [← BitVec.toNat_inj, fieldK8_toNat]; omega
  rw [decodeFirst_ldi (by omega), hfieldD, hfieldK]

theorem decodeFirst_encodeIO (A : IoAddr) (r : Reg) :
    decodeFirst (encodeIO A r) = .whole (.out A r) := by
  have hw := encodeIO_toNat A r
  have hfieldA : fieldA (encodeIO A r) = A := by rw [Fin.ext_iff, fieldA_val]; omega
  have hfieldD : fieldD (encodeIO A r) = r := by rw [Fin.ext_iff, fieldD_val]; omega
  rw [decodeFirst_out (by omega), hfieldA, hfieldD]

/-- The two words of JMP hold the 22 bits of its address (R58). -/
theorem decode_encode_jmp (k : Pc) (ws : List Word) :
    decode (encode (.jmp k) ++ ws) = .ok (.jmp k, ws) := by
  have hw := encodeJmpFirst_toNat k
  have hfirst : decodeFirst (encodeJmpFirst k) = .jmpFirst (fieldJmpHigh (encodeJmpFirst k)) :=
    decodeFirst_jmp (by omega) (by omega)
  have haddress : jmpAddress (fieldJmpHigh (encodeJmpFirst k)) (k.extractLsb' 0 16) = k := by
    rw [← BitVec.toNat_inj, jmpAddress, toNat_append_eq_add, fieldJmpHigh_toNat, jmpSecond_toNat]
    omega
  rw [encode_jmp, List.cons_append, List.cons_append, List.nil_append]
  simp only [decode, hfirst, haddress]

/-- Settles O1, format by format. -/
theorem decodeUndoesEncode : Obligations.DecodeUndoesEncode := by
  rintro i ws ⟨hrange, hname⟩
  have one {w : Word} {i : Instr} (h : decodeFirst w = .whole i) : decode (w :: ws) = .ok (i, ws) :=
    decode_cons_of_decodeFirst h ws
  cases i with
  | com d => exact one (decodeFirst_encodeRD d 0 .com (by simp [formatRD]))
  | neg d => exact one (decodeFirst_encodeRD d 1 .neg (by simp [formatRD]))
  | swap d => exact one (decodeFirst_encodeRD d 2 .swap (by simp [formatRD]))
  | inc d => exact one (decodeFirst_encodeRD d 3 .inc (by simp [formatRD]))
  | asr d => exact one (decodeFirst_encodeRD d 5 .asr (by simp [formatRD]))
  | lsr d => exact one (decodeFirst_encodeRD d 6 .lsr (by simp [formatRD]))
  | ror d => exact one (decodeFirst_encodeRD d 7 .ror (by simp [formatRD]))
  | dec d => exact one (decodeFirst_encodeRD d 10 .dec (by simp [formatRD]))
  | lsl d => exact one (decodeFirst_encodeRR_same 3 d .lsl .add (by simp [formatRR]))
  | rol d => exact one (decodeFirst_encodeRR_same 7 d .rol .adc (by simp [formatRR]))
  | clr d => exact one (decodeFirst_encodeRR_same 9 d .clr .eor (by simp [formatRR]))
  | add d r =>
    exact one (decodeFirst_encodeRR_ne 3 (of_decide_eq_true hname) .lsl .add (by simp [formatRR]))
  | adc d r =>
    exact one (decodeFirst_encodeRR_ne 7 (of_decide_eq_true hname) .rol .adc (by simp [formatRR]))
  | eor d r =>
    exact one (decodeFirst_encodeRR_ne 9 (of_decide_eq_true hname) .clr .eor (by simp [formatRR]))
  | brlo k => exact one (decodeFirst_encodeBR 0 0 hrange .brlo (by simp [formatBR]))
  | breq k => exact one (decodeFirst_encodeBR 0 1 hrange .breq (by simp [formatBR]))
  | brmi k => exact one (decodeFirst_encodeBR 0 2 hrange .brmi (by simp [formatBR]))
  | brvs k => exact one (decodeFirst_encodeBR 0 3 hrange .brvs (by simp [formatBR]))
  | brsh k => exact one (decodeFirst_encodeBR 1 0 hrange .brsh (by simp [formatBR]))
  | brne k => exact one (decodeFirst_encodeBR 1 1 hrange .brne (by simp [formatBR]))
  | brpl k => exact one (decodeFirst_encodeBR 1 2 hrange .brpl (by simp [formatBR]))
  | brvc k => exact one (decodeFirst_encodeBR 1 3 hrange .brvc (by simp [formatBR]))
  | rjmp k => exact one (decodeFirst_encodeRJ hrange)
  | ldi d K => exact one (decodeFirst_encodeRI (of_decide_eq_true hrange) K)
  | out A r => exact one (decodeFirst_encodeIO A r)
  | jmp k => exact decode_encode_jmp k ws
  | ijmp | sen | sez => rfl

/-! ### The encoding of a decoded word, format by format -/

theorem encodeRD_fieldD {w pattern : Word} (f : BitVec 4) (h : fits w 0xFE0F pattern = true)
    (hp : pattern.toNat = 0x9400 + f.toNat) : encodeRD (fieldD w) f = w := by
  obtain ⟨_, _, _, _, hfits, _⟩ := fits_iff w pattern
  have hw := hfits.mp h
  rw [← BitVec.toNat_inj, encodeRD_toNat, fieldD_val]
  omega

theorem encodeRR_fieldD_fieldR {w pattern : Word} (op : BitVec 6) (h : fits w 0xFC00 pattern = true)
    (hp : pattern.toNat = 1024 * op.toNat) : encodeRR op (fieldD w) (fieldR w) = w := by
  obtain ⟨hfits, _⟩ := fits_iff w pattern
  have hw := hfits.mp h
  rw [← BitVec.toNat_inj, encodeRR_toNat, fieldD_val, fieldR_val]
  omega

theorem encodeBR_fieldK7 {w pattern : Word} (s : BitVec 1) (b : BitVec 3)
    (h : fits w 0xFC07 pattern = true) (hp : pattern.toNat = 0xF000 + 1024 * s.toNat + b.toNat) :
    encodeBR s (fieldK7 w) b = w := by
  obtain ⟨_, _, _, hfits, _, _⟩ := fits_iff w pattern
  have hw := hfits.mp h
  rw [← BitVec.toNat_inj, encodeBR_toNat, fieldK7, BitVec.ofInt_toInt, extractLsb'_toNat_eq]
  omega

theorem encodeRJ_fieldK12 {w : Word} (h : fits w 0xF000 0xC000 = true) :
    encodeRJ (fieldK12 w) = w := by
  obtain ⟨_, _, hfits, _, _, _⟩ := fits_iff w 0xC000
  have hw : 4096 * (w.toNat / 4096) = 0xC000 := hfits.mp h
  rw [← BitVec.toNat_inj, encodeRJ_toNat, fieldK12, BitVec.ofInt_toInt, extractLsb'_toNat_eq]
  omega

theorem encodeRI_fieldHighD_fieldK8 {w : Word} (h : fits w 0xF000 0xE000 = true) :
    encodeRI (fieldHighD w) (fieldK8 w) = w := by
  obtain ⟨_, _, hfits, _, _, _⟩ := fits_iff w 0xE000
  have hw : 4096 * (w.toNat / 4096) = 0xE000 := hfits.mp h
  rw [← BitVec.toNat_inj, encodeRI_toNat, fieldHighD_val, fieldK8_toNat]
  omega

theorem encodeIO_fieldA_fieldD {w : Word} (h : fits w 0xF800 0xB800 = true) :
    encodeIO (fieldA w) (fieldD w) = w := by
  obtain ⟨_, hfits, _, _, _, _⟩ := fits_iff w 0xB800
  have hw : 2048 * (w.toNat / 2048) = 0xB800 := hfits.mp h
  rw [← BitVec.toNat_inj, encodeIO_toNat, fieldA_val, fieldD_val]
  omega

theorem encode_jmpAddress {w : Word} (h : fits w 0xFE0E 0x940C = true) (w2 : Word) :
    encode (.jmp (jmpAddress (fieldJmpHigh w) w2)) = [w, w2] := by
  obtain ⟨_, _, _, _, _, hfits⟩ := fits_iff w 0x940C
  have hw : 512 * (w.toNat / 512) + 2 * (w.toNat / 2 % 8) = 0x940C := hfits.mp h
  have hk : (jmpAddress (fieldJmpHigh w) w2).toNat = 65536 * (fieldJmpHigh w).toNat + w2.toNat :=
    toNat_append_eq_add _ _
  have hw2 := w2.isLt
  rw [fieldJmpHigh_toNat] at hk
  rw [encode_jmp]
  congr 2
  · rw [← BitVec.toNat_inj, encodeJmpFirst_toNat]; omega
  · rw [← BitVec.toNat_inj, jmpSecond_toNat]; omega

/-! ### Every decoded word is its instruction's encoding -/

/-- What a first word `w` says, and the encoder confirms: the instruction it names is well formed
and has the encoding `w`. -/
def FirstWord.Encodes (w : Word) : FirstWord → Prop
  | .whole i => i.WellFormed ∧ encode i = [w]
  | .jmpFirst hi => ∀ w2, encode (.jmp (jmpAddress hi w2)) = [w, w2]
  | .unlisted _ => True

/-- The tests of R60 in their order: a test that fails leaves the rest to be shown. -/
theorem FirstWord.Encodes.ite {w : Word} {c : Prop} [Decidable c] {x y : FirstWord}
    (hx : c → x.Encodes w) (hy : y.Encodes w) : (if c then x else y).Encodes w := by
  split
  · exact hx ‹c›
  · exact hy

theorem FirstWord.Encodes.whole {w w' : Word} {i : Instr} (hwf : i.WellFormed)
    (hi : encode i = [w']) (h : w' = w) : (FirstWord.whole i).Encodes w := ⟨hwf, h ▸ hi⟩

/-- A word of format RR under either name (R54). -/
theorem encodes_formatRR {w pattern : Word} (op : BitVec 6) {mk : Reg → Instr}
    {mk' : Reg → Reg → Instr} (h : fits w 0xFC00 pattern = true)
    (hp : pattern.toNat = 1024 * op.toNat)
    (hmk : ∀ d, (mk d).WellFormed ∧ encode (mk d) = [encodeRR op d d])
    (hmk' : ∀ d r, d ≠ r → (mk' d r).WellFormed ∧ encode (mk' d r) = [encodeRR op d r]) :
    (FirstWord.whole (if fieldD w = fieldR w then mk (fieldD w)
      else mk' (fieldD w) (fieldR w))).Encodes w := by
  have e := encodeRR_fieldD_fieldR op h hp
  split
  next heq =>
    obtain ⟨hwf, henc⟩ := hmk (fieldD w)
    rw [← heq] at e
    exact .whole hwf henc e
  next hne =>
    obtain ⟨hwf, henc⟩ := hmk' (fieldD w) (fieldR w) hne
    exact .whole hwf henc e

/-- Test by test in the order of R60. -/
theorem decodeFirst_encodes (w : Word) : (decodeFirst w).Encodes w := by
  refine .ite (fun h => .whole ⟨rfl, rfl⟩ rfl h.symm) ?_
  refine .ite (fun h => .whole ⟨rfl, rfl⟩ rfl h.symm) ?_
  refine .ite (fun h => .whole ⟨rfl, rfl⟩ rfl h.symm) ?_
  refine .ite (fun h w2 => encode_jmpAddress h w2) ?_
  refine .ite (fun h => .whole ⟨rfl, rfl⟩ rfl (encodeRD_fieldD 0 h rfl)) ?_
  refine .ite (fun h => .whole ⟨rfl, rfl⟩ rfl (encodeRD_fieldD 1 h rfl)) ?_
  refine .ite (fun h => .whole ⟨rfl, rfl⟩ rfl (encodeRD_fieldD 2 h rfl)) ?_
  refine .ite (fun h => .whole ⟨rfl, rfl⟩ rfl (encodeRD_fieldD 3 h rfl)) ?_
  refine .ite (fun h => .whole ⟨rfl, rfl⟩ rfl (encodeRD_fieldD 5 h rfl)) ?_
  refine .ite (fun h => .whole ⟨rfl, rfl⟩ rfl (encodeRD_fieldD 6 h rfl)) ?_
  refine .ite (fun h => .whole ⟨rfl, rfl⟩ rfl (encodeRD_fieldD 7 h rfl)) ?_
  refine .ite (fun h => .whole ⟨rfl, rfl⟩ rfl (encodeRD_fieldD 10 h rfl)) ?_
  refine .ite (fun h => encodes_formatRR 3 h rfl (fun _ => ⟨⟨rfl, rfl⟩, rfl⟩)
    fun _ _ hne => ⟨⟨rfl, decide_eq_true hne⟩, rfl⟩) ?_
  refine .ite (fun h => encodes_formatRR 7 h rfl (fun _ => ⟨⟨rfl, rfl⟩, rfl⟩)
    fun _ _ hne => ⟨⟨rfl, decide_eq_true hne⟩, rfl⟩) ?_
  refine .ite (fun h => encodes_formatRR 9 h rfl (fun _ => ⟨⟨rfl, rfl⟩, rfl⟩)
    fun _ _ hne => ⟨⟨rfl, decide_eq_true hne⟩, rfl⟩) ?_
  refine .ite (fun h => .whole ⟨fieldK7_inBranchRange w, rfl⟩ rfl (encodeBR_fieldK7 0 0 h rfl)) ?_
  refine .ite (fun h => .whole ⟨fieldK7_inBranchRange w, rfl⟩ rfl (encodeBR_fieldK7 0 1 h rfl)) ?_
  refine .ite (fun h => .whole ⟨fieldK7_inBranchRange w, rfl⟩ rfl (encodeBR_fieldK7 0 2 h rfl)) ?_
  refine .ite (fun h => .whole ⟨fieldK7_inBranchRange w, rfl⟩ rfl (encodeBR_fieldK7 0 3 h rfl)) ?_
  refine .ite (fun h => .whole ⟨fieldK7_inBranchRange w, rfl⟩ rfl (encodeBR_fieldK7 1 0 h rfl)) ?_
  refine .ite (fun h => .whole ⟨fieldK7_inBranchRange w, rfl⟩ rfl (encodeBR_fieldK7 1 1 h rfl)) ?_
  refine .ite (fun h => .whole ⟨fieldK7_inBranchRange w, rfl⟩ rfl (encodeBR_fieldK7 1 2 h rfl)) ?_
  refine .ite (fun h => .whole ⟨fieldK7_inBranchRange w, rfl⟩ rfl (encodeBR_fieldK7 1 3 h rfl)) ?_
  refine .ite (fun h => .whole ⟨fieldK12_inRjmpRange w, rfl⟩ (encode_rjmp _)
    (encodeRJ_fieldK12 h)) ?_
  refine .ite (fun h => .whole ⟨decide_eq_true (Nat.le_add_right 16 _), rfl⟩ (encode_ldi _ _)
    (encodeRI_fieldHighD_fieldK8 h)) ?_
  refine .ite (fun h => .whole ⟨rfl, rfl⟩ (encode_out _ _) (encodeIO_fieldA_fieldD h)) trivial

/-- Settles O2. -/
theorem encodeUndoesDecode : Obligations.EncodeUndoesDecode := by
  intro ws i rest h
  cases ws with
  | nil => cases h
  | cons w ws =>
    have henc := decodeFirst_encodes w
    cases hw : decodeFirst w with
    | whole j =>
      rw [decode_cons_of_decodeFirst hw] at h
      cases h
      rw [hw] at henc
      obtain ⟨hwf, hi⟩ := henc
      exact ⟨hwf, by rw [hi]; rfl⟩
    | unlisted name => simp [decode, hw] at h
    | jmpFirst hi =>
      cases ws with
      | nil => simp [decode, hw] at h
      | cons w2 ws =>
        simp only [decode, hw] at h
        cases h
        rw [hw] at henc
        exact ⟨⟨rfl, rfl⟩, by rw [henc w2]; rfl⟩

/-- Settles O4. -/
theorem opcodeMapByLeadingBits : Obligations.OpcodeMapByLeadingBits := by
  intro w
  refine ⟨fun h => ⟨_, decodeFirst_unlisted h⟩, fun ⟨h, h'⟩ => ⟨_, decodeFirst_rjmp ?_⟩,
    fun ⟨h, h'⟩ => ⟨_, _, decodeFirst_ldi ?_⟩⟩ <;> omega

/-- Settles O3: each word is evaluated. -/
theorem decodeReadsTheVectorWords : Obligations.DecodeReadsTheVectorWords := by
  unfold Obligations.DecodeReadsTheVectorWords
  and_intros <;> decide

end Sys2Proof

/-! # Program memory, the fetch and the refusals

What a loaded program reads as, what the fetch answers for each first word, and the three ways an
instruction can answer. -/

namespace Sys2Proof.Machine

/-! ### A loaded program reads back (R31, R34, R223) -/

theorem bytesOfWord_wordOfBytes (lo hi : Byte) : bytesOfWord (wordOfBytes lo hi) = [lo, hi] := by
  have h : (wordOfBytes lo hi).toNat = _ := toNat_append_eq_add hi lo
  have hlo := lo.isLt
  have hhi := hi.isLt
  rw [bytesOfWord, List.cons.injEq, List.cons.injEq]
  refine ⟨?_, ?_, rfl⟩ <;> rw [← BitVec.toNat_inj, extractLsb'_toNat_eq, h] <;> omega

theorem wordOfBytes_extractLsb' (w : Word) :
    wordOfBytes (w.extractLsb' 0 8) (w.extractLsb' 8 8) = w := by
  rw [← BitVec.toNat_inj, wordOfBytes, toNat_append_eq_add, extractLsb'_toNat_eq,
    extractLsb'_toNat_eq]
  omega

/-- Loading words changes no byte outside them. -/
theorem Memory.read_loadWords_outside (m : Memory) (base : Nat) (ws : List Word) {b : Nat}
    (h : b < 2 * base ∨ 2 * (base + ws.length) ≤ b) :
    Memory.read (Memory.loadWords m base ws) b = Memory.read m b := by
  induction ws generalizing m base with
  | nil => rfl
  | cons w ws ih =>
    rw [List.length_cons] at h
    rw [Memory.loadWords, ih _ _ (by omega), Memory.read_writeBytes, if_neg]
    simp only [bytesOfWord, List.length_cons, List.length_nil]
    omega

/-- The two bytes of a loaded word. -/
theorem Memory.read_loadWords (m : Memory) (base : Nat) (ws : List Word) {n : Nat} {w : Word}
    (h : ws[n]? = some w) :
    Memory.read (Memory.loadWords m base ws) (2 * (base + n)) = some (w.extractLsb' 0 8) ∧
    Memory.read (Memory.loadWords m base ws) (2 * (base + n) + 1) = some (w.extractLsb' 8 8) := by
  induction ws generalizing m base n with
  | nil => cases h
  | cons x ws ih =>
    cases n with
    | zero =>
      obtain rfl : x = w := Option.some.inj h
      rw [Memory.loadWords, Memory.read_loadWords_outside _ _ _ (by omega),
        Memory.read_loadWords_outside _ _ _ (by omega), Memory.read_writeBytes,
        Memory.read_writeBytes]
      simp [bytesOfWord]
    | succ n =>
      have e : base + (n + 1) = base + 1 + n := by omega
      rw [e]
      exact ih _ _ h

theorem State.progRead_loadWords (s : State) (base : Nat) (ws : List Word) {n : Nat} {w : Word}
    (h : ws[n]? = some w) (hlt : base + n < s.cfg.flashWords) :
    { s with prog := Memory.loadWords s.prog base ws }.progRead (base + n) = .next w := by
  obtain ⟨hlo, hhi⟩ := Memory.read_loadWords s.prog base ws h
  rw [State.progRead_of_read (s := { s with prog := Memory.loadWords s.prog base ws }) hlt hlo hhi,
    wordOfBytes_extractLsb']

/-- Settles O7. -/
theorem loadedProgramReadsBack : Obligations.LoadedProgramReadsBack :=
  fun s base _ ws _ h hlt =>
    ⟨s.progRead_loadWords base ws h hlt, fun _ => Memory.read_loadWords_outside s.prog base ws⟩

/-! ### What the fetch answers, by the first word (R63, R203) -/

theorem Answer.andThen_eq_fault {α β : Type} {x : Answer α} {f : α → Answer β} {r : Fault} :
    x.andThen f = .fault r ↔ x = .fault r ∨ ∃ a, x = .next a ∧ f a = .fault r := by
  cases x <;> simp [Answer.andThen]

section FirstWord

variable {s : State} {w : Word}

theorem State.fetch_unlisted {name : Option NamedOnly} (hw : s.progRead s.pc.toNat = .next w)
    (hd : decodeFirst w = .unlisted name) : s.fetch = .refused (.encodingNotSpecified name) := by
  simp [State.fetch, hw, hd]

theorem State.fetch_whole {i : Instr} (hw : s.progRead s.pc.toNat = .next w)
    (hd : decodeFirst w = .whole i) (hr : deviceRefuses s.cfg i = none) : s.fetch = .next i := by
  simp [State.fetch, hw, hd, hr]

theorem State.fetch_whole_refused {i : Instr} {r : Refusal} (hw : s.progRead s.pc.toNat = .next w)
    (hd : decodeFirst w = .whole i) (hr : deviceRefuses s.cfg i = some r) :
    s.fetch = .refused r := by
  simp [State.fetch, hw, hd, hr]

theorem State.fetch_jmp_refused {hi : BitVec 6} (hw : s.progRead s.pc.toNat = .next w)
    (hd : decodeFirst w = .jmpFirst hi) (hr : s.cfg.hasJmp = false) :
    s.fetch = .refused .jmpNotImplemented := by
  simp [State.fetch, hw, hd, hr, deviceRefuses]

theorem State.fetch_jmp {hi : BitVec 6} (hw : s.progRead s.pc.toNat = .next w)
    (hd : decodeFirst w = .jmpFirst hi) (hr : s.cfg.hasJmp = true) :
    s.fetch = (s.progRead (s.pc.toNat + 1)).andThen fun w2 => .next (.jmp (jmpAddress hi w2)) := by
  simp [State.fetch, hw, hd, hr, deviceRefuses]

end FirstWord

theorem deviceRefuses_jmp_eq_none {c : Config} {k : Pc} :
    deviceRefuses c (.jmp k) = none ↔ c.hasJmp = true := by
  cases h : c.hasJmp <;> simp [deviceRefuses, h]

theorem deviceRefuses_of_isSupplementary {c : Config} {i : Instr} (hi : i.isSupplementary = true)
    (hc : c.admitSupplementary = false) : deviceRefuses c i = some .supplementaryNotAdmitted := by
  cases i with
  | ldi | add | adc | eor | out | sen | sez => simp [deviceRefuses, hc]
  | _ => cases hi

/-- The words at the program counter, decoded, are what the fetch gives. -/
theorem State.fetch_of_decode {s : State} {ws : List Word} {i : Instr}
    (h : decode ws = .ok (i, [])) (hws : WordsAt s s.pc.toNat ws)
    (hr : deviceRefuses s.cfg i = none) : s.fetch = .next i := by
  cases ws with
  | nil => cases h
  | cons w ws =>
    obtain ⟨hw, hws⟩ := hws
    cases hd : decodeFirst w with
    | whole j =>
      rw [decode_cons_of_decodeFirst hd] at h
      cases h
      exact State.fetch_whole hw hd hr
    | unlisted name => simp [decode, hd] at h
    | jmpFirst hi =>
      cases ws with
      | nil => simp [decode, hd] at h
      | cons w2 ws =>
        simp only [decode, hd] at h
        cases h
        rw [State.fetch_jmp hw hd (deviceRefuses_jmp_eq_none.mp hr), hws.1, Answer.andThen_next]

/-- Settles O5. -/
theorem stepRunsTheDecodedInstruction : Obligations.StepRunsTheDecodedInstruction :=
  fun _ _ _ h hws hr => step_of_fetch (State.fetch_of_decode h hws hr)

/-! ### An instruction placed at the program counter (R31, R34) -/

/-- Words stand from an address on exactly where each of them is read in its place. -/
theorem wordsAt_iff {s : State} {a : Nat} {ws : List Word} :
    WordsAt s a ws ↔ ∀ (n : Nat) (w : Word), ws[n]? = some w → s.progRead (a + n) = .next w := by
  induction ws generalizing a with
  | nil => simp [WordsAt]
  | cons x ws ih =>
    rw [WordsAt, ih]
    constructor
    · rintro ⟨hx, hws⟩ n w hn
      cases n with
      | zero => cases hn; exact hx
      | succ n => rw [← hws n w hn, Nat.add_right_comm, Nat.add_assoc]
    · intro h
      refine ⟨h 0 x rfl, fun n w hn => ?_⟩
      rw [← h (n + 1) w hn, Nat.add_right_comm, Nat.add_assoc]

/-- The two words of an instruction's bits as spec/opcode_table.json numbers them. -/
def tableWords (nbits w : Nat) : List Word :=
  let v := w % Nat.pow 2 nbits
  [wordOfBytes (BitVec.ofNat 8 v) (BitVec.ofNat 8 (v / 256)),
    wordOfBytes (BitVec.ofNat 8 (v / 65536)) (BitVec.ofNat 8 (v / 16777216))]

/-- Placing an instruction is loading its two words. -/
theorem State.withFetchWord_eq (s : State) (nbits w : Nat) :
    s.withFetchWord nbits w =
      { s with prog := Memory.loadWords s.prog s.pc.toNat (tableWords nbits w) } := by
  simp only [tableWords, Memory.loadWords, bytesOfWord_wordOfBytes]
  rfl

theorem decode_tableWords {nbits w : Nat} {i : Instr} (h : decodeTableWord nbits w = some i) :
    ∃ rest, decode (tableWords nbits w) = .ok (i, rest) := by
  have e : decodeBytes (tableBytes nbits w) = decode (tableWords nbits w) := rfl
  rw [decodeTableWord, e] at h
  cases hd : decode (tableWords nbits w) with
  | error _ => simp [hd] at h
  | ok p =>
    obtain ⟨j, rest⟩ := p
    simp only [hd, Option.some.injEq] at h
    exact ⟨rest, h ▸ rfl⟩

theorem encode_length (i : Instr) : (encode i).length = i.words := by cases i <;> rfl

/-- Settles O6: the encoding of the instruction is what the placed bits begin with, and so stands at
the program counter. -/
theorem stepRunsThePlacedInstruction : Obligations.StepRunsThePlacedInstruction := by
  intro s nbits w i h hflash hr
  obtain ⟨rest, hdecode⟩ := decode_tableWords h
  obtain ⟨hwf, hencode⟩ := encodeUndoesDecode _ _ _ hdecode
  have hback : decode (encode i) = .ok (i, []) := by simpa using decodeUndoesEncode i [] hwf
  refine step_of_fetch (State.fetch_of_decode hback (wordsAt_iff.mpr fun n x hn => ?_) hr)
  obtain ⟨hlt, _⟩ := List.getElem?_eq_some_iff.mp hn
  rw [encode_length] at hlt
  rw [State.withFetchWord_eq]
  refine s.progRead_loadWords _ _ ?_ (Nat.lt_of_lt_of_le (Nat.add_lt_add_left hlt _) hflash)
  rw [← hencode, List.getElem?_append_left (by rwa [encode_length]), hn]

/-! ### Where a step stops (R33, R63, R200, R203) -/

/-- Everything an instruction can answer. -/
theorem exec_cases (i : Instr) (s : State) :
    (∃ t, exec i s = .next t) ∨
    (∃ k, i = .jmp k ∧ s.cfg.pcWidth.words ≤ k.toNat ∧
      exec i s = .refused .jmpTargetWiderThanPc) ∨
    (∃ A r, i = .out A r ∧ A ∉ s.cfg.ioPlain ∧ exec i s = .refused .outAddressNotPlain) := by
  cases i with
  | jmp k =>
    by_cases hk : k.toNat < s.cfg.pcWidth.words
    · exact .inl ⟨_, if_pos hk⟩
    · exact .inr (.inl ⟨k, rfl, Nat.le_of_not_lt hk, if_neg hk⟩)
  | out A r =>
    by_cases hA : A ∈ s.cfg.ioPlain
    · exact .inl ⟨_, if_pos hA⟩
    · exact .inr (.inr ⟨A, r, rfl, hA, if_neg hA⟩)
  | _ => exact .inl ⟨_, rfl⟩

/-- Settles O15. -/
theorem everyInstructionCompletes : Obligations.EveryInstructionCompletes := by
  intro i s hjmp hout
  rcases exec_cases i s with h | ⟨k, hi, hk, _⟩ | ⟨A, r, hi, hA, _⟩
  · exact h
  · exact absurd (hjmp k hi) (Nat.not_lt.mpr hk)
  · exact absurd (hout A r hi) hA

/-- Settles O16. -/
theorem instructionsStopOnlyAtTheNamedRefusals :
    Obligations.InstructionsStopOnlyAtTheNamedRefusals := by
  intro i s
  rcases exec_cases i s with ⟨t, h⟩ | ⟨k, hi, hk, h⟩ | ⟨A, q, hi, hA, h⟩ <;> rw [h]
  · exact ⟨nofun, nofun⟩
  · exact ⟨nofun, fun r hr => .inl ⟨k, hi, hk, (Host.Outcome.refused.inj hr).symm⟩⟩
  · exact ⟨nofun, fun r hr => .inr ⟨A, q, hi, hA, (Host.Outcome.refused.inj hr).symm⟩⟩

theorem step_of_fetch_refused {s : State} {r : Refusal} (h : s.fetch = .refused r) :
    step s = .refused r := by
  rw [step, h, Answer.andThen_refused]

/-- Settles O8, a clause for each check. -/
theorem stepRefusesInTheOrderOfTheChecks : Obligations.StepRefusesInTheOrderOfTheChecks := by
  refine fun s => ⟨fun h => step_of_fetch_refused ?_,
    fun w name hw hd => step_of_fetch_refused (State.fetch_unlisted hw hd),
    fun w i hw hd hi hc => step_of_fetch_refused
      (State.fetch_whole_refused hw hd (deviceRefuses_of_isSupplementary hi hc)),
    fun w hi hw hd hc => step_of_fetch_refused (State.fetch_jmp_refused hw hd hc),
    fun w hi hw hd hc h => step_of_fetch_refused ?_⟩
  · rw [State.fetch, State.progRead_outside h, Answer.andThen_refused]
  · rw [State.fetch_jmp hw hd hc, State.progRead_outside h, Answer.andThen_refused]

theorem State.progRead_fault {s : State} {a : Nat} {r : Fault} (h : s.progRead a = .fault r) :
    r = .programWordNotLoaded ∧ a < s.cfg.flashWords ∧
      (Memory.read s.prog (2 * a) = none ∨ Memory.read s.prog (2 * a + 1) = none) := by
  have hlt : a < s.cfg.flashWords := by
    by_contra hge
    rw [State.progRead_outside (Nat.le_of_not_lt hge)] at h
    cases h
  refine ⟨by cases r; rfl, hlt, ?_⟩
  by_contra hboth
  obtain ⟨hlo, hhi⟩ := not_or.mp hboth
  obtain ⟨lo, hlo⟩ := Option.ne_none_iff_exists'.mp hlo
  obtain ⟨hi, hhi⟩ := Option.ne_none_iff_exists'.mp hhi
  rw [State.progRead_of_read hlt hlo hhi] at h
  cases h

/-- A fetch faults only where one of its two reads of program memory does. -/
theorem State.fetch_fault {s : State} {r : Fault} (h : s.fetch = .fault r) :
    ∃ a, (a = s.pc.toNat ∨ a = s.pc.toNat + 1) ∧ s.progRead a = .fault r := by
  rcases Answer.andThen_eq_fault.mp h with h1 | ⟨w, hw, _⟩
  · exact ⟨_, .inl rfl, h1⟩
  cases hd : decodeFirst w with
  | unlisted name => rw [State.fetch_unlisted hw hd] at h; cases h
  | whole i =>
    cases hr : deviceRefuses s.cfg i with
    | none => rw [State.fetch_whole hw hd hr] at h; cases h
    | some q => rw [State.fetch_whole_refused hw hd hr] at h; cases h
  | jmpFirst hi =>
    cases hr : s.cfg.hasJmp with
    | false => rw [State.fetch_jmp_refused hw hd hr] at h; cases h
    | true =>
      rw [State.fetch_jmp hw hd hr] at h
      rcases Answer.andThen_eq_fault.mp h with h2 | ⟨w2, _, hn⟩
      · exact ⟨_, .inr rfl, h2⟩
      · cases hn

/-- Settles O9: no instruction faults, so the fault is the fetch's. -/
theorem stepFaultsOnlyOnAnUnloadedWord : Obligations.StepFaultsOnlyOnAnUnloadedWord := by
  intro s r h
  rcases Answer.andThen_eq_fault.mp h with hf | ⟨i, _, he⟩
  · obtain ⟨a, ha, hread⟩ := State.fetch_fault hf
    obtain ⟨hr, hlt, hnone⟩ := State.progRead_fault hread
    exact ⟨hr, a, ha, hlt, hnone⟩
  · obtain ⟨hnofault, _⟩ := instructionsStopOnlyAtTheNamedRefusals i s
    exact absurd he (hnofault r)

/-! ### The initial state (R25, R220) -/

/-- A bit of a byte, as a number. -/
theorem getLsbD_toNat (b : Byte) (i : Nat) : (b.getLsbD i).toNat = b.toNat / 2 ^ i % 2 :=
  Nat.toNat_testBit _ _

theorem Sreg.toByte_ofByte (b : Byte) : (Sreg.ofByte b).toByte = b := by
  rw [← BitVec.toNat_inj]
  simp only [Sreg.toByte, Sreg.ofByte, toNat_append_eq_add, BitVec.toNat_ofBool, getLsbD_toNat]
  omega

theorem State.initial_inv {cfg : Config} (regs : Vector Byte 32) (io : Vector Byte 64)
    {prog : Memory} (hc : cfg.wf) (hp : Memory.wf prog) :
    Inv (State.initial cfg regs io prog) where
  device := hc
  program := hp
  pc := let ⟨_, _, hpc, _⟩ := hc; hpc
  plain := nofun
  io := nofun

/-- Settles O10. -/
theorem initialStateHoldsInvariant : Obligations.InitialStateHoldsInvariant :=
  ⟨fun _ regs io _ hc hp => ⟨rfl, Sreg.toByte_ofByte _, rfl, State.initial_inv regs io hc hp⟩,
    State.initial_inv _ _ (by decide) Memory.reset_wf⟩

end Sys2Proof.Machine

/-! # All instructions at once

What every instruction keeps, where it goes and what it costs, and what every step and every run
keeps because of that. -/

namespace Sys2Proof.Machine

/-! ### The flags an instruction keeps (R19) -/

/-- CLR writes what a result of 0 with V = 0 writes (R101). -/
theorem clrFlags_eq (f : Sreg) : clrFlags f = f.withResult 0x00 false := rfl

/-- With H and C replaced as well, as NEG, the left shifts and the sums do, T and I are still
kept. -/
theorem Sreg.get_withResult_halfCarry_of_notMem {g : Flag} (f : Sreg) (R : Byte) (v h c : Bool)
    (hg : g ∉ [Flag.H, .S, .V, .N, .Z, .C]) :
    Sreg.get { f.withResult R v with H := h, C := c } g = f.get g := by
  cases g with
  | H | S | V | N | Z | C => simp at hg
  | T | I => rfl

theorem Sreg.get_senFlags_of_notMem {g : Flag} (f : Sreg) (hg : g ∉ [Flag.N]) :
    (senFlags f).get g = f.get g := by
  cases g with
  | N => simp at hg
  | _ => rfl

theorem Sreg.get_sezFlags_of_notMem {g : Flag} (f : Sreg) (hg : g ∉ [Flag.Z]) :
    (sezFlags f).get g = f.get g := by
  cases g with
  | Z => simp at hg
  | _ => rfl

theorem exec_keepsFlags {i : Instr} {s t : State} (h : exec i s = .next t) :
    KeepsFlagsExcept (flagsWritten i) s t := by
  intro g hg
  cases i with
  | clr =>
    obtain rfl := Host.Outcome.next.inj h
    exact Sreg.get_withResult_of_notMem s.sreg 0x00 false hg
  | inc | dec | eor =>
    obtain rfl := Host.Outcome.next.inj h
    exact Sreg.get_withResult_of_notMem _ _ _ hg
  | com | ror | lsr | asr =>
    obtain rfl := Host.Outcome.next.inj h
    exact Sreg.get_withResult_carry_of_notMem _ _ _ _ hg
  | neg | rol | lsl | add | adc =>
    obtain rfl := Host.Outcome.next.inj h
    exact Sreg.get_withResult_halfCarry_of_notMem _ _ _ _ _ hg
  | sen =>
    obtain rfl := Host.Outcome.next.inj h
    exact Sreg.get_senFlags_of_notMem _ hg
  | sez =>
    obtain rfl := Host.Outcome.next.inj h
    exact Sreg.get_sezFlags_of_notMem _ hg
  | swap | ldi =>
    obtain rfl := Host.Outcome.next.inj h
    rfl
  | brne | brlo | brsh | breq | brmi | brpl | brvc | brvs | jmp | rjmp | ijmp | out =>
    rcases exec_next_cases h with ⟨_, _, _, hd, _⟩ | ⟨_, hi, _⟩ | ⟨_, _, _, _, rfl⟩ |
      ⟨_, _, _, _, _, _, rfl⟩
    · cases hd
    · simp at hi
    · rfl
    · rfl

/-! ### The frame (R8, R11, R35) -/

/-- Settles O14. -/
theorem everyInstructionKeepsItsFrame : Obligations.EveryInstructionKeepsItsFrame := by
  intro i s t h
  have hflags := exec_keepsFlags h
  rcases exec_next_cases h with ⟨d, R, f, hd, rfl⟩ | ⟨f, hi, rfl⟩ | ⟨A, r, rfl, hA, rfl⟩ |
    ⟨p, n, hp, _, _, _, rfl⟩
  · refine ⟨fun j hj => ?_, hflags, ⟨fun _ => rfl, rfl, rfl⟩, fun _ _ => rfl, fun _ => rfl⟩
    rw [hd, Option.toList_some, List.mem_singleton] at hj
    rw [State.readReg_finish, if_neg (Ne.symm hj)]
  · exact ⟨fun _ _ => rfl, hflags, ⟨fun _ => rfl, rfl, rfl⟩, fun _ _ => rfl, fun _ => rfl⟩
  · refine ⟨fun _ _ => rfl, hflags, ⟨fun _ => rfl, rfl, rfl⟩, fun B hB => ?_, nofun⟩
    rw [State.readIo_advance, State.readIo_ioWrite_other _ _ _ _ fun e => hB (congrArg some e)]
  · exact ⟨fun _ _ => rfl, hflags, ⟨fun _ => rfl, rfl, rfl⟩, fun _ _ => rfl, fun _ => rfl⟩

/-! ### Where an instruction goes, and what it costs (R16, R131, R230) -/

/-- The conditional branches are `branchOn` of their flag and value (R131). -/
theorem exec_of_branchCondition {i : Instr} {f : Flag} {v : Bool}
    (h : branchCondition i = some (f, v)) :
    ∃ k, i.operandsInRange = inBranchRange k ∧ ∀ s, exec i s = .next (s.branchOn f v k) := by
  cases i with
  | brne k | brlo k | brsh k | breq k | brmi k | brpl k | brvc k | brvs k =>
    cases h
    exact ⟨k, rfl, fun _ => rfl⟩
  | _ => cases h

/-- The next program counter and the cost of every instruction: a branch, one of the three jumps, or
the next word in one cycle. -/
theorem exec_goesTo_cases {i : Instr} {s t : State} (h : exec i s = .next t) :
    (∃ f v k, branchCondition i = some (f, v) ∧ t = s.branchOn f v k) ∨
    (∃ k, i = .jmp k ∧ t = s.goTo k 3) ∨
    (∃ k, i = .rjmp k ∧ t = s.goTo (s.relativeTarget k) 2) ∨
    (i = .ijmp ∧ t = s.goTo s.zTarget 2) ∨
    (t.pc = s.sequentialTarget ∧ t.cycles = s.cycles + 1 ∧ cyclesOf s.sreg i = 1) := by
  cases i with
  | brne k | brlo k | brsh k | breq k | brmi k | brpl k | brvc k | brvs k =>
    exact .inl ⟨_, _, k, rfl, (Host.Outcome.next.inj h).symm⟩
  | jmp k =>
    by_cases hk : k.toNat < s.cfg.pcWidth.words
    · rw [exec, execJmp, if_pos hk] at h
      exact .inr (.inl ⟨k, rfl, (Host.Outcome.next.inj h).symm⟩)
    · rw [exec, execJmp, if_neg hk] at h
      cases h
  | rjmp k => exact .inr (.inr (.inl ⟨k, rfl, (Host.Outcome.next.inj h).symm⟩))
  | ijmp => exact .inr (.inr (.inr (.inl ⟨rfl, (Host.Outcome.next.inj h).symm⟩)))
  | _ =>
    refine .inr (.inr (.inr (.inr ?_)))
    rcases exec_next_cases h with ⟨_, _, _, _, rfl⟩ | ⟨_, _, rfl⟩ | ⟨_, _, _, _, rfl⟩ |
      ⟨_, _, _, hd, hf, hio, _⟩
    · exact ⟨rfl, rfl, rfl⟩
    · exact ⟨rfl, rfl, rfl⟩
    · exact ⟨rfl, rfl, rfl⟩
    · simp [destination, flagsWritten, ioDestination] at hd hf hio

/-- Settles O17. -/
theorem straightInstructionsGoToTheNextWord : Obligations.StraightInstructionsGoToTheNextWord := by
  intro i s t h hbranch hjmp hrjmp hijmp
  rcases exec_goesTo_cases h with ⟨f, v, k, hb, _⟩ | ⟨k, hi, _⟩ | ⟨k, hi, _⟩ | ⟨hi, _⟩ | ⟨hpc, _⟩
  · rw [hbranch] at hb; cases hb
  · exact absurd hi (hjmp k)
  · exact absurd hi (hrjmp k)
  · exact absurd hi hijmp
  · rw [hpc, State.sequentialTarget_toNat]

/-- The cycle table has for every branch 2 where its flag has its value and 1 where not (R230). -/
theorem cyclesOf_of_branchCondition {i : Instr} {f : Flag} {v : Bool} (g : Sreg)
    (h : branchCondition i = some (f, v)) : cyclesOf g i = if g.get f = v then 2 else 1 := by
  cases i with
  | brne | brlo | brsh | breq | brmi | brpl | brvc | brvs =>
    cases h
    simp only [cyclesOf, Sreg.get]
    split <;> simp_all
  | _ => cases h

/-- Settles O18. -/
theorem everyInstructionCostsItsCycles : Obligations.EveryInstructionCostsItsCycles := by
  intro i s t h
  rcases exec_goesTo_cases h with ⟨f, v, k, hb, rfl⟩ | ⟨k, rfl, rfl⟩ | ⟨k, rfl, rfl⟩ | ⟨rfl, rfl⟩ |
    ⟨_, hcycles, hcost⟩
  · rw [cyclesOf_of_branchCondition _ hb]
    rcases s.branchOn_cases f v k with ⟨hf, e⟩ | ⟨hf, e⟩
    · rw [e, if_pos hf, State.goTo_cycles]
    · rw [e, if_neg hf, State.goTo_cycles]
  · rfl
  · rfl
  · rfl
  · rw [hcycles, hcost]

theorem cyclesOf_bounds (f : Sreg) (i : Instr) : 1 ≤ cyclesOf f i ∧ cyclesOf f i ≤ 3 := by
  cases i with
  | brne | brlo | brsh | breq | brmi | brpl | brvc | brvs =>
    rw [cyclesOf_of_branchCondition f rfl]
    split <;> decide
  | _ => simp [cyclesOf]

/-! ### S after a core instruction (R20) -/

/-- Settles O19: every row that has N, V or S goes through the formulas of R100. -/
theorem signFlagIsNXorVAfterCoreInstructions :
    Obligations.SignFlagIsNXorVAfterCoreInstructions := by
  intro i s t h hcore hwritten
  cases i with
  | clr | inc | dec | com | neg | rol | ror | lsl | lsr | asr =>
    obtain rfl := Host.Outcome.next.inj h
    rfl
  | swap | brne | brlo | brsh | breq | brmi | brpl | brvc | brvs | jmp | rjmp | ijmp =>
    simp [flagsWritten] at hwritten
  | ldi | add | adc | eor | out | sen | sez => cases hcore

/-! ### What every step and every run keeps -/

/-- What the invariant speaks of, and an instruction other than OUT does not touch. -/
theorem Inv.of_eq {s t : State} (h : Inv s) (hcfg : t.cfg = s.cfg) (hprog : t.prog = s.prog)
    (hpc : t.pc.toNat < s.cfg.pcWidth.words) (hio : t.io = s.io) (htrace : t.ioTrace = s.ioTrace) :
    Inv t where
  device := hcfg ▸ h.device
  program := hprog ▸ h.program
  pc := hcfg ▸ hpc
  plain := by rw [hcfg, htrace]; exact h.plain
  io A v hw := by
    rw [htrace] at hw
    rw [State.readIo, hio]
    exact h.io A v hw

/-- A write to a plain address keeps the invariant (R35, R36). -/
theorem Inv.ioWrite {s : State} (h : Inv s) {A : IoAddr} (hA : A ∈ s.cfg.ioPlain) (v : Byte) :
    Inv (s.ioWrite A v) where
  device := h.device
  program := h.program
  pc := h.pc
  plain e he := by
    rw [State.ioWrite_ioTrace, List.mem_append, List.mem_singleton] at he
    rcases he with he | rfl
    · exact h.plain e he
    · exact hA
  io B u hw := by
    rw [State.ioWrite_ioTrace, lastWrite_append] at hw
    rw [State.readIo_ioWrite]
    split at hw
    next e =>
      rw [if_pos e]
      exact Option.some.inj hw
    next e =>
      rw [if_neg e]
      exact h.io B u hw

/-- Settles O11. -/
theorem stepKeepsInvariant : Obligations.StepKeepsInvariant := by
  intro s t hs h
  obtain ⟨i, _, hexec⟩ := step_next h
  rcases exec_next_cases hexec with ⟨_, _, _, _, rfl⟩ | ⟨_, _, rfl⟩ | ⟨A, r, _, hA, rfl⟩ |
    ⟨_, _, hp, _, _, _, rfl⟩
  · exact hs.of_eq rfl rfl s.sequentialTarget_lt rfl rfl
  · exact hs.of_eq rfl rfl s.sequentialTarget_lt rfl rfl
  · exact (hs.ioWrite hA _).of_eq rfl rfl (s.ioWrite A _).sequentialTarget_lt rfl rfl
  · exact hs.of_eq rfl rfl hp rfl rfl

/-- No row of the flag table has T or I (R19). -/
theorem notMem_flagsWritten (i : Instr) : Flag.T ∉ flagsWritten i ∧ Flag.I ∉ flagsWritten i := by
  cases i <;> simp [flagsWritten]

theorem step_keepsProgram {s t : State} (h : step s = .next t) : KeepsProgram s t := by
  obtain ⟨i, _, hexec⟩ := step_next h
  obtain ⟨_, _, hprogram, _, _⟩ := everyInstructionKeepsItsFrame i s t hexec
  exact hprogram

theorem step_keepsTAndI {s t : State} (h : step s = .next t) :
    t.sreg.T = s.sreg.T ∧ t.sreg.I = s.sreg.I := by
  obtain ⟨i, _, hexec⟩ := step_next h
  obtain ⟨hT, hI⟩ := notMem_flagsWritten i
  exact ⟨exec_keepsFlags hexec .T hT, exec_keepsFlags hexec .I hI⟩

theorem KeepsProgram.trans {s t u : State} (h : KeepsProgram s t) (h' : KeepsProgram t u) :
    KeepsProgram s u :=
  let ⟨hread, hprog, hcfg⟩ := h
  let ⟨hread', hprog', hcfg'⟩ := h'
  ⟨fun a => (hread' a).trans (hread a), hprog'.trans hprog, hcfg'.trans hcfg⟩

/-- Settles O12. -/
theorem runsKeepProgramDeviceAndInterruptFlag :
    Obligations.RunsKeepProgramDeviceAndInterruptFlag := by
  rintro s t ⟨n, h⟩
  have hprogram : KeepsProgram s t :=
    holds_of_reachable (fun _ _ hu hstep => hu.trans (step_keepsProgram hstep))
      ⟨fun _ => rfl, rfl, rfl⟩ h
  have hflags : t.sreg.T = s.sreg.T ∧ t.sreg.I = s.sreg.I :=
    holds_of_reachable (P := fun u => u.sreg.T = s.sreg.T ∧ u.sreg.I = s.sreg.I)
      (fun _ _ ⟨hT, hI⟩ hstep =>
        let ⟨hT', hI'⟩ := step_keepsTAndI hstep
        ⟨hT'.trans hT, hI'.trans hI⟩) ⟨rfl, rfl⟩ h
  obtain ⟨hT, hI⟩ := hflags
  exact ⟨hprogram, hI, hT, fun hs => hI.trans hs⟩

theorem step_extendsTrace {s t : State} (h : step s = .next t) :
    s.ioTrace <+: t.ioTrace ∧ t.ioTrace.length ≤ s.ioTrace.length + 1 := by
  obtain ⟨i, _, hexec⟩ := step_next h
  rcases exec_next_cases hexec with ⟨_, _, _, _, rfl⟩ | ⟨_, _, rfl⟩ | ⟨A, r, _, _, rfl⟩ |
    ⟨_, _, _, _, _, _, rfl⟩
  · exact ⟨List.prefix_rfl, Nat.le_succ _⟩
  · exact ⟨List.prefix_rfl, Nat.le_succ _⟩
  · exact ⟨List.prefix_append _ _, by simp⟩
  · exact ⟨List.prefix_rfl, Nat.le_succ _⟩

theorem step_cycles {s t : State} (h : step s = .next t) :
    s.cycles + 1 ≤ t.cycles ∧ t.cycles ≤ s.cycles + 3 := by
  obtain ⟨i, _, hexec⟩ := step_next h
  have hbounds := cyclesOf_bounds s.sreg i
  rw [everyInstructionCostsItsCycles i s t hexec]
  omega

/-- Settles O13, by induction on the number of steps. -/
theorem runsOnlyExtendTheOutputTrace : Obligations.RunsOnlyExtendTheOutputTrace := by
  intro n
  induction n with
  | zero =>
    intro s t h
    obtain rfl := Host.Outcome.next.inj h
    exact ⟨List.prefix_rfl, Nat.le_refl _, Nat.le_refl _, Nat.le_refl _⟩
  | succ n ih =>
    intro s t h
    obtain ⟨u, hstep, hrun⟩ := core_run_succ.mp h
    obtain ⟨hprefix, hlength, hlo, hhi⟩ := ih u t hrun
    obtain ⟨hprefix', hlength'⟩ := step_extendsTrace hstep
    have hcycles := step_cycles hstep
    exact ⟨hprefix'.trans hprefix, by omega, by omega, by omega⟩

/-! ### What no instruction reads (R19) -/

/-- Flags that agree on C, Z, N and V and on a list of flags. -/
def Sreg.AgreesOn (written : List Flag) (f g : Sreg) : Prop :=
  g.C = f.C ∧ g.Z = f.Z ∧ g.N = f.N ∧ g.V = f.V ∧ ∀ x, x ∈ written → g.get x = f.get x

/-- States that agree on the registers, the program counter, the I/O space and the cycles, and have
flags that agree on C, Z, N and V and on a list of flags. -/
def State.AgreesOn (written : List Flag) (t u : State) : Prop :=
  u.regs = t.regs ∧ u.pc = t.pc ∧ u.io = t.io ∧ u.ioTrace = t.ioTrace ∧ u.cycles = t.cycles ∧
    Sreg.AgreesOn written t.sreg u.sreg

theorem Sreg.AgreesOn.withResult {f g : Sreg} (h : f.C = g.C) (R : Byte) (v : Bool) :
    Sreg.AgreesOn [.S, .V, .N, .Z] (f.withResult R v) (g.withResult R v) := by
  refine ⟨h.symm, rfl, rfl, rfl, fun x hx => ?_⟩
  cases x with
  | S | V | N | Z => rfl
  | C | H | T | I => simp at hx

theorem Sreg.AgreesOn.withResult_carry (f g : Sreg) (R : Byte) (v c : Bool) :
    Sreg.AgreesOn [.S, .V, .N, .Z, .C] { f.withResult R v with C := c }
      { g.withResult R v with C := c } := by
  refine ⟨rfl, rfl, rfl, rfl, fun x hx => ?_⟩
  cases x with
  | S | V | N | Z | C => rfl
  | H | T | I => simp at hx

theorem Sreg.AgreesOn.withResult_halfCarry (f g : Sreg) (R : Byte) (v h c : Bool) :
    Sreg.AgreesOn [.H, .S, .V, .N, .Z, .C] { f.withResult R v with H := h, C := c }
      { g.withResult R v with H := h, C := c } := by
  refine ⟨rfl, rfl, rfl, rfl, fun x hx => ?_⟩
  cases x with
  | H | S | V | N | Z | C => rfl
  | T | I => simp at hx

theorem State.AgreesOn.finish {written : List Flag} {f g : Sreg} (s : State) (f' : Sreg) (d : Reg)
    (R : Byte) (h : Sreg.AgreesOn written f g) :
    State.AgreesOn written (s.finish d R f) ((s.writeSreg f').finish d R g) :=
  ⟨rfl, rfl, rfl, rfl, rfl, h⟩

theorem State.AgreesOn.goTo {s : State} {f : Sreg} (h : Sreg.AgreesOn [] s.sreg f) (p : Pc)
    (n : Nat) : State.AgreesOn [] (s.goTo p n) ((s.writeSreg f).goTo p n) :=
  ⟨rfl, rfl, rfl, rfl, rfl, h⟩

/-- A branch on C, Z, N or V is taken from both states or from neither. -/
theorem State.AgreesOn.branchOn {s : State} {f : Sreg} (h : Sreg.AgreesOn [] s.sreg f) {x : Flag}
    (hx : f.get x = s.sreg.get x) (v : Bool) (k : Int) :
    State.AgreesOn [] (s.branchOn x v k) ((s.writeSreg f).branchOn x v k) := by
  rw [State.branchOn, State.branchOn, State.writeSreg_sreg, hx]
  split
  · exact .goTo h _ 2
  · exact .goTo h _ 1

/-- Settles O20, by the way the instruction ends: C is the one flag a result is computed from. -/
theorem shtAndIAreNeverRead : Obligations.SHTAndIAreNeverRead := by
  intro i s f t u hC hZ hN hV ht hu
  obtain ⟨I, T, H, S, V, N, Z, C⟩ := f
  obtain rfl : C = s.sreg.C := hC
  have hf : Sreg.AgreesOn [] s.sreg ⟨I, T, H, S, V, N, Z, s.sreg.C⟩ := ⟨rfl, hZ, hN, hV, nofun⟩
  have given {t' u' : State} (ht' : exec i s = .next t')
      (hu' : exec i (s.writeSreg ⟨I, T, H, S, V, N, Z, s.sreg.C⟩) = .next u')
      (h : State.AgreesOn (flagsWritten i) t' u') : State.AgreesOn (flagsWritten i) t u := by
    obtain rfl := Host.Outcome.next.inj (ht'.symm.trans ht)
    obtain rfl := Host.Outcome.next.inj (hu'.symm.trans hu)
    exact h
  cases i with
  | clr => exact given rfl rfl (.finish s _ _ _ (.withResult (f := s.sreg) (by rfl) 0x00 false))
  | inc | dec | eor => exact given rfl rfl (.finish s _ _ _ (.withResult (by rfl) _ _))
  | com | ror | lsr | asr =>
    exact given rfl rfl (.finish s _ _ _ (.withResult_carry _ _ _ _ _))
  | neg | rol | lsl | add | adc =>
    exact given rfl rfl (.finish s _ _ _ (.withResult_halfCarry _ _ _ _ _ _))
  | swap | ldi => exact given rfl rfl (.finish s _ _ _ hf)
  | sen =>
    exact given rfl rfl ⟨rfl, rfl, rfl, rfl, rfl, rfl, hZ, rfl, hV,
      fun x hx => List.mem_singleton.mp hx ▸ rfl⟩
  | sez =>
    exact given rfl rfl ⟨rfl, rfl, rfl, rfl, rfl, rfl, rfl, hN, hV,
      fun x hx => List.mem_singleton.mp hx ▸ rfl⟩
  | brlo k | brsh k => exact given rfl rfl (.branchOn hf (x := .C) rfl _ k)
  | breq k | brne k => exact given rfl rfl (.branchOn hf (x := .Z) hZ _ k)
  | brmi k | brpl k => exact given rfl rfl (.branchOn hf (x := .N) hN _ k)
  | brvs k | brvc k => exact given rfl rfl (.branchOn hf (x := .V) hV _ k)
  | rjmp | ijmp => exact given rfl rfl (.goTo hf _ _)
  | jmp k =>
    by_cases hk : k.toNat < s.cfg.pcWidth.words
    · exact given (if_pos hk) (if_pos hk) (.goTo hf k 3)
    · cases ht.symm.trans (if_neg hk)
  | out A r =>
    by_cases hA : A ∈ s.cfg.ioPlain
    · exact given (if_pos hA) (if_pos hA) ⟨rfl, rfl, rfl, rfl, rfl, hf⟩
    · cases ht.symm.trans (if_neg hA)

end Sys2Proof.Machine

/-! # Register instructions: the rest of R101 to R111, and R160 to R167

The words as numbers, the results and flags as numbers, and then each instruction from these. -/

namespace Sys2Proof.Machine

/-! ### Words -/

/-- An instruction with a one-word encoding is what the number of that word decodes to. -/
theorem decode_ofNat {i : Instr} {w : Word} {n : Nat} (hwf : i.WellFormed) (hi : encode i = [w])
    (hn : w.toNat = n) : decode [BitVec.ofNat 16 n] = .ok (i, []) := by
  have h := decodeUndoesEncode i [] hwf
  rwa [List.append_nil, hi, ← ofNat_eq_of_toNat hn] at h

/-! ### Bits, nibbles and signs, as numbers -/

theorem getLsbD_three_iff (b : Byte) : b.getLsbD 3 = true ↔ 8 ≤ b.toNat % 16 := by
  rw [← Bool.toNat_eq_one, getLsbD_toNat]
  omega

theorem lowNibble_toNat (b : Byte) : (b.extractLsb' 0 4).toNat = b.toNat % 16 :=
  BitVec.extractLsb'_toNat 0 4 b

theorem toInt_cases (b : Byte) :
    (b.toNat < 128 ∧ b.toInt = b.toNat) ∨ (128 ≤ b.toNat ∧ b.toInt = b.toNat - 256) := by
  have h : b.toInt = if 2 * b.toNat < 256 then (b.toNat : Int) else (b.toNat : Int) - 256 :=
    BitVec.toInt_eq_toNat_cond b
  split at h
  · exact .inl ⟨by omega, h⟩
  · exact .inr ⟨by omega, h⟩

/-- `ResultFlags` does not look at H or C. -/
theorem Sreg.withResult_halfCarry_resultFlags (f : Sreg) (R : Byte) (v h c : Bool) :
    ResultFlags R { f.withResult R v with H := h, C := c } := f.withResult_resultFlags R v

theorem carryOf_eq_toNat (c : Bool) : carryOf c = c.toNat := by cases c <;> rfl

/-! ### CLR, EOR and LDI (R101, R161, R164) -/

/-- Settles O21. -/
theorem clrClearsAndSetsZero : Obligations.ClrClearsAndSetsZero := by
  intro d s
  refine ⟨decode_ofNat ⟨rfl, rfl⟩ rfl (encodeRR_toNat 9 d d), _, rfl,
    s.finish_oneWordFrame d _ fun _ => Sreg.get_withResult_of_notMem s.sreg 0x00 false, ?_⟩
  rw [State.readReg_finish_same, BitVec.xor_self]
  exact ⟨rfl, rfl, rfl, rfl, rfl⟩

/-- Settles O47. -/
theorem eorExclusiveOrs : Obligations.EorExclusiveOrs := by
  intro d r s
  refine ⟨fun hne => decode_ofNat ⟨rfl, decide_eq_true hne⟩ rfl (encodeRR_toNat 9 d r), _, rfl,
    s.finish_oneWordFrame d _ fun _ => Sreg.get_withResult_of_notMem _ _ _, ?_⟩
  rw [State.readReg_finish_same]
  exact ⟨fun _ => BitVec.getLsbD_xor, Sreg.withResult_resultFlags _ _ _, rfl⟩

/-- Settles O44. -/
theorem ldiLoadsItsConstant : Obligations.LdiLoadsItsConstant :=
  fun d K s =>
    ⟨fun hd => decode_ofNat ⟨decide_eq_true hd, rfl⟩ (encode_ldi d K) (encodeRI_toNat d K),
      _, rfl, s.finish_oneWordFrame d K fun _ _ => rfl, s.readReg_finish_same d K _⟩

/-! ### NEG (R105) -/

theorem negResult_toNat (rd : Byte) : (negResult rd).toNat = (256 - rd.toNat) % 256 :=
  BitVec.toNat_sub 0x00 rd

theorem negFlags_H_iff (f : Sreg) (rd R : Byte) :
    (negFlags f rd R).H = true ↔ 0 < rd.toNat % 16 := by
  have h : (negFlags f rd R).H = decide (rd.extractLsb' 0 4 ≠ 0#4) := rfl
  rw [h, decide_eq_true_iff, ← lowNibble_toNat, Nat.pos_iff_ne_zero, ne_eq, ne_eq,
    ← BitVec.toNat_inj]
  rfl

/-- Settles O25: there is a borrow from bit 3 exactly where Rd or the result has bit 3. -/
theorem negSubtractsFromZero : Obligations.NegSubtractsFromZero := by
  intro d s
  refine ⟨decode_formatRD (0x1, .neg) (by simp [formatRD]) d, _, rfl,
    s.finish_oneWordFrame d _ fun _ => Sreg.get_withResult_halfCarry_of_notMem _ _ _ _ _, ?_⟩
  rw [State.readReg_finish_same]
  have hR := negResult_toNat (s.readReg d)
  have hH := negFlags_H_iff s.sreg (s.readReg d) (negResult (s.readReg d))
  refine ⟨hR, Sreg.withResult_halfCarry_resultFlags _ _ _ _ _, decide_eq_true_iff.trans ?_,
    decide_eq_true_iff.trans (not_congr ?_), hH, hH.trans ?_⟩
  · exact BitVec.toNat_inj (y := 0x80).symm
  · exact BitVec.toNat_inj (y := 0x00).symm
  · omega

/-! ### ADD and ADC (R162, R163) -/

theorem addResult_toNat (rd rr : Byte) (c : Bool) :
    (addResult rd rr c).toNat = (rd.toNat + rr.toNat + c.toNat) % 256 := by
  rw [addResult, BitVec.toNat_ofNat, carryOf_eq_toNat]

section Sum

variable (f : Sreg) (rd rr : Byte) (c : Bool)

theorem addFlags_C_iff :
    (addFlags f rd rr c).C = true ↔ 255 < rd.toNat + rr.toNat + c.toNat := by
  rw [← carryOf_eq_toNat]
  exact decide_eq_true_iff

/-- C is the ninth bit of the exact sum. -/
theorem addFlags_C_addResult :
    256 * (addFlags f rd rr c).C.toNat + (addResult rd rr c).toNat =
      rd.toNat + rr.toNat + c.toNat := by
  have hC := addFlags_C_iff f rd rr c
  have hlt := c.toNat_lt
  have hlt' := (addFlags f rd rr c).C.toNat_lt
  rw [← Bool.toNat_eq_one] at hC
  rw [addResult_toNat]
  omega

theorem addFlags_H_iff :
    (addFlags f rd rr c).H = true ↔ 16 ≤ rd.toNat % 16 + rr.toNat % 16 + c.toNat := by
  rw [← carryOf_eq_toNat, ← lowNibble_toNat, ← lowNibble_toNat]
  exact decide_eq_true_iff

/-- V is set where the operands have one sign and the result has the other (R114). -/
theorem addFlags_V_iff :
    (addFlags f rd rr c).V = true ↔
      (rd.toInt + rr.toInt + c.toNat < -128 ∨ 127 < rd.toInt + rr.toInt + c.toNat) := by
  have h : (addFlags f rd rr c).V =
    (rd.getLsbD 7 && rr.getLsbD 7 && !(addResult rd rr c).getLsbD 7 ||
      !rd.getLsbD 7 && !rr.getLsbD 7 && (addResult rd rr c).getLsbD 7) := rfl
  have hR := addResult_toNat rd rr c
  have hlt := c.toNat_lt
  have hd := toInt_cases rd
  have hr := toInt_cases rr
  simp only [h, Bool.or_eq_true, Bool.and_eq_true, Bool.not_eq_true', ← Bool.not_eq_true,
    getLsbD_seven_iff]
  omega

/-- N ⊕ V is the sign of the exact sum (R114). -/
theorem addFlags_S_iff :
    (addFlags f rd rr c).S = true ↔ rd.toInt + rr.toInt + c.toNat < 0 := by
  have h : (addFlags f rd rr c).S =
    ((addResult rd rr c).getLsbD 7 ^^ (addFlags f rd rr c).V) := rfl
  have hR := addResult_toNat rd rr c
  have hlt := c.toNat_lt
  have hd := toInt_cases rd
  have hr := toInt_cases rr
  rw [h, Bool.xor_iff_ne, ne_eq, Bool.eq_iff_iff, getLsbD_seven_iff, addFlags_V_iff]
  omega

end Sum

/-- Settles O46. -/
theorem adcSumsWithCarryAndSetsFlags : Obligations.AdcSumsWithCarryAndSetsFlags := by
  intro d r s
  refine ⟨fun hne => decode_ofNat ⟨rfl, decide_eq_true hne⟩ rfl (encodeRR_toNat 7 d r), _, rfl,
    s.finish_oneWordFrame d _ fun _ => Sreg.get_withResult_halfCarry_of_notMem _ _ _ _ _, ?_⟩
  rw [State.readReg_finish_same]
  exact ⟨addFlags_C_addResult _ _ _ _, Sreg.withResult_halfCarry_resultFlags _ _ _ _ _,
    addFlags_H_iff _ _ _ _, addFlags_V_iff _ _ _ _, addFlags_S_iff _ _ _ _⟩

/-- Settles O45: as ADC, with 0 carried in. -/
theorem addSumsAndSetsFlags : Obligations.AddSumsAndSetsFlags := by
  intro d r s
  refine ⟨fun hne => decode_ofNat ⟨rfl, decide_eq_true hne⟩ rfl (encodeRR_toNat 3 d r), _, rfl,
    s.finish_oneWordFrame d _ fun _ => Sreg.get_withResult_halfCarry_of_notMem _ _ _ _ _, ?_⟩
  rw [State.readReg_finish_same]
  have hV := addFlags_V_iff s.sreg (s.readReg d) (s.readReg r) false
  have hS := addFlags_S_iff s.sreg (s.readReg d) (s.readReg r) false
  rw [Bool.toNat_false, Nat.cast_zero, add_zero] at hV hS
  exact ⟨addFlags_C_addResult _ _ _ false, Sreg.withResult_halfCarry_resultFlags _ _ _ _ _,
    addFlags_H_iff _ _ _ false, hV, hS⟩

/-! ### The left shifts, and the aliases (R62, R106, R108) -/

theorem shiftLeftIn_toNat (rd : Byte) (b : Bool) :
    (shiftLeftIn rd b).toNat = 2 * (rd.toNat % 128) + b.toNat := by
  have h : (shiftLeftIn rd b).toNat = 2 ^ 1 * (rd.extractLsb' 0 7).toNat + _ :=
    toNat_append_eq_add _ _
  have hlow : (rd.extractLsb' 0 7).toNat = rd.toNat % 2 ^ 7 := BitVec.extractLsb'_toNat 0 7 rd
  rw [h, hlow, BitVec.toNat_ofBool]
  rfl

/-- With the bit that is shifted out, a left shift only moves its nine bits. -/
theorem shiftLeftIn_add (rd : Byte) (b : Bool) :
    256 * (rd.getLsbD 7).toNat + (shiftLeftIn rd b).toNat = 2 * rd.toNat + b.toNat := by
  have hlt := rd.isLt
  rw [shiftLeftIn_toNat, getLsbD_toNat]
  omega

theorem addResult_self (rd : Byte) (c : Bool) : addResult rd rd c = shiftLeftIn rd c := by
  have hlt := c.toNat_lt
  rw [← BitVec.toNat_inj, addResult_toNat, shiftLeftIn_toNat]
  omega

/-- Doubling a register carries its own bits 3 and 7 out. -/
theorem addFlags_self (f : Sreg) (rd : Byte) (c : Bool) :
    addFlags f rd rd c = shiftLeftFlags f rd (shiftLeftIn rd c) := by
  have hlt := c.toNat_lt
  have hH : decide (15 < (rd.extractLsb' 0 4).toNat + (rd.extractLsb' 0 4).toNat + carryOf c) =
      rd.getLsbD 3 := by
    rw [Bool.eq_iff_iff, decide_eq_true_iff, getLsbD_three_iff, lowNibble_toNat, carryOf_eq_toNat]
    omega
  have hC : decide (255 < rd.toNat + rd.toNat + carryOf c) = rd.getLsbD 7 := by
    rw [Bool.eq_iff_iff, decide_eq_true_iff, getLsbD_seven_iff, carryOf_eq_toNat]
    omega
  have hV (x y : Bool) : (x && x && !y || !x && !x && y) = (y ^^ x) := by
    cases x <;> cases y <;> rfl
  simp only [addFlags, shiftLeftFlags, addResult_self, hH, hC, hV]

/-- Settles O34. -/
theorem aliasesHaveTheEffectOfTheirParents : Obligations.AliasesHaveTheEffectOfTheirParents := by
  intro d s
  refine ⟨?_, ?_, ?_⟩
  · simp only [exec, execEor, execClr, BitVec.xor_self, clrFlags_eq, eorFlags]
    rfl
  · simp only [exec, execAdd, execLsl, addResult_self, addFlags_self]
  · simp only [exec, execAdc, execRol, addResult_self, addFlags_self]

/-- Settles O26. -/
theorem rolRotatesLeftThroughCarry : Obligations.RolRotatesLeftThroughCarry := by
  intro d s
  refine ⟨decode_ofNat ⟨rfl, rfl⟩ rfl (encodeRR_toNat 7 d d), _, rfl,
    s.finish_oneWordFrame d _ fun _ => Sreg.get_withResult_halfCarry_of_notMem _ _ _ _ _, ?_⟩
  rw [State.readReg_finish_same]
  exact ⟨shiftLeftIn_add _ _, Sreg.withResult_halfCarry_resultFlags _ _ _ _ _, rfl,
    getLsbD_three_iff _⟩

/-- Settles O28: the signed meaning of V and S is that of ADD Rd,Rd. -/
theorem lslDoubles : Obligations.LslDoubles := by
  intro d s
  refine ⟨decode_ofNat ⟨rfl, rfl⟩ rfl (encodeRR_toNat 3 d d), _, rfl,
    s.finish_oneWordFrame d _ fun _ => Sreg.get_withResult_halfCarry_of_notMem _ _ _ _ _, ?_⟩
  rw [State.readReg_finish_same]
  have hV := addFlags_V_iff s.sreg (s.readReg d) (s.readReg d) false
  have hS := addFlags_S_iff s.sreg (s.readReg d) (s.readReg d) false
  rw [addFlags_self, Bool.toNat_false, Nat.cast_zero, add_zero, ← two_mul] at hV hS
  exact ⟨shiftLeftIn_add _ false, Sreg.withResult_halfCarry_resultFlags _ _ _ _ _, rfl,
    getLsbD_three_iff _, hV, hS.trans (by omega)⟩

/-! ### ASR (R110) -/

theorem shiftRightIn_sign_toInt (rd : Byte) :
    2 * (shiftRightIn (rd.getLsbD 7) rd).toInt + (rd.getLsbD 0).toNat = rd.toInt := by
  have hval := two_mul_shiftRightIn_add (rd.getLsbD 7) rd
  have hsign := getLsbD_toNat rd 7
  have hd := toInt_cases rd
  have hR := toInt_cases (shiftRightIn (rd.getLsbD 7) rd)
  have hlt := (rd.getLsbD 0).toNat_lt
  omega

theorem shiftRightIn_sign_div (rd : Byte) :
    (shiftRightIn (rd.getLsbD 7) rd).toNat / 128 = rd.toNat / 128 := by
  have hsign := getLsbD_toNat rd 7
  rw [shiftRightIn_toNat]
  omega

/-- Settles O30: S = N ⊕ V and V = N ⊕ C. -/
theorem asrHalvesSigned : Obligations.AsrHalvesSigned := by
  intro d s
  refine ⟨decode_formatRD (0x5, .asr) (by simp [formatRD]) d, _, rfl,
    s.finish_oneWordFrame d _ fun _ => Sreg.get_withResult_carry_of_notMem _ _ _ _, ?_⟩
  rw [State.readReg_finish_same]
  exact ⟨shiftRightIn_sign_toInt _, shiftRightIn_sign_div _,
    Sreg.withResult_carry_resultFlags _ _ _ _, rfl, Bool.bne_self_left _ _⟩

/-! ### Two instructions in a row (R104, R106, R107, R111) -/

/-- A result and then the old value again leave the registers as they were. -/
theorem State.finish_finish_regs (s : State) (d : Reg) (R : Byte) (f g : Sreg) :
    ((s.finish d R f).finish d (s.readReg d) g).regs = s.regs := by
  refine Vector.ext fun j hj => ?_
  have h : ((s.finish d R f).finish d (s.readReg d) g).readReg ⟨j, hj⟩ = s.readReg ⟨j, hj⟩ := by
    rw [State.readReg_finish, State.readReg_finish]
    split
    next e => rw [e]
    next => rfl
  exact h

theorem swapResult_swapResult (rd : Byte) : swapResult (swapResult rd) = rd := by
  have hlt := rd.isLt
  rw [← BitVec.toNat_inj, swapResult_toNat, swapResult_toNat]
  omega

theorem comResult_comResult (rd : Byte) : comResult (comResult rd) = rd := by
  have h := comResult_toNat_add rd
  have h' := comResult_toNat_add (comResult rd)
  rw [← BitVec.toNat_inj]
  omega

/-- Settles O32. -/
theorem swapAndComUndoThemselves : Obligations.SwapAndComUndoThemselves := by
  intro d s
  refine ⟨⟨_, _, rfl, rfl, ?_, rfl⟩, ⟨_, _, rfl, rfl, ?_, rfl⟩⟩
  · rw [State.readReg_finish_same, swapResult_swapResult, State.finish_finish_regs]
  · rw [State.readReg_finish_same, comResult_comResult, State.finish_finish_regs]

/-- Settles O33, from what each of the two instructions does: the second finds its register as it
was and the first one's carry in C. -/
theorem shiftPairsMoveSixteenBits : Obligations.ShiftPairsMoveSixteenBits := by
  intro hi lo s hne
  refine ⟨?_, ?_, ?_⟩
  · obtain ⟨_, t, ht, htframe, htval, _⟩ := lslDoubles lo s
    obtain ⟨_, u, hu, huframe, huval, _⟩ := rolRotatesLeftThroughCarry hi t
    have hhi := htframe.regs hi (by simpa using hne)
    have hlo := huframe.regs lo (by simpa using hne.symm)
    refine ⟨t, u, ht, hu, ?_⟩
    rw [hhi] at huval
    rw [State.pairValue, State.pairValue, hlo]
    omega
  · obtain ⟨_, t, ht, htframe, htval, _⟩ := lsrHalvesUnsigned hi s
    obtain ⟨_, u, hu, huframe, huval, _⟩ := rorRotatesRightThroughCarry lo t
    have hlo := htframe.regs lo (by simpa using hne.symm)
    have hhi := huframe.regs hi (by simpa using hne)
    refine ⟨t, u, ht, hu, ?_⟩
    rw [hlo] at huval
    rw [State.pairValue, State.pairValue, hhi]
    omega
  · obtain ⟨_, t, ht, htframe, htval, _⟩ := asrHalvesSigned hi s
    obtain ⟨_, u, hu, huframe, huval, _⟩ := rorRotatesRightThroughCarry lo t
    have hlo := htframe.regs lo (by simpa using hne.symm)
    have hhi := huframe.regs hi (by simpa using hne)
    refine ⟨t, u, ht, hu, ?_⟩
    rw [hlo] at huval
    rw [State.pairSigned, State.pairSigned, hhi]
    omega

/-! ### OUT, SEN and SEZ (R165 to R167) -/

theorem State.advance_goesToNextWord (s : State) : GoesToNextWord s s.advance := fun hlt => by
  rw [State.advance_pc, State.sequentialTarget_toNat, Nat.mod_eq_of_lt hlt]

/-- Settles O48. -/
theorem outWritesTheIoRegisterAndAppendsTheEvent :
    Obligations.OutWritesTheIoRegisterAndAppendsTheEvent := by
  refine fun A r s => ⟨decode_ofNat ⟨rfl, rfl⟩ (encode_out A r) (encodeIO_toNat A r), fun hA =>
    ⟨_, if_pos hA, s.readIo_ioWrite_same A _, fun B hB => ?_, rfl, fun hport => ?_, fun _ _ => rfl,
      fun _ _ => rfl, ⟨fun _ => rfl, rfl, rfl⟩, (s.ioWrite A _).advance_goesToNextWord⟩,
    fun hA => if_neg hA⟩
  · exact s.readIo_ioWrite_other A B _ hB.symm
  · rw [State.portB, State.advance_cfg, State.ioWrite_cfg, ← hport]
    exact s.readIo_ioWrite_same A _

/-- Replacing flags and going on changes nothing but the flags named. -/
theorem State.writeSreg_advance_oneWordFrame {s : State} {written : List Flag} {f : Sreg}
    (hf : ∀ g, g ∉ written → f.get g = s.sreg.get g) :
    OneWordFrame [] written s (s.writeSreg f).advance where
  regs _ _ := rfl
  flags := hf
  program := ⟨fun _ => rfl, rfl, rfl⟩
  io := ⟨fun _ => rfl, rfl⟩
  next := (s.writeSreg f).advance_goesToNextWord

/-- Settles O49. -/
theorem senAndSezSetOneFlag : Obligations.SenAndSezSetOneFlag :=
  ⟨rfl, rfl, fun s =>
    ⟨⟨_, rfl, State.writeSreg_advance_oneWordFrame fun _ => Sreg.get_senFlags_of_notMem s.sreg,
        rfl⟩,
      ⟨_, rfl, State.writeSreg_advance_oneWordFrame fun _ => Sreg.get_sezFlags_of_notMem s.sreg,
        rfl⟩⟩⟩

end Sys2Proof.Machine

/-! # Branches, jumps and runs

The two next program counters of a branch, the jumps, and where a run ends (R130 to R153, R226). -/

namespace Sys2Proof.Machine

/-! ### Conditional branches (R130 to R141) -/

/-- Going somewhere changes the program counter and the cycles only. -/
theorem State.goTo_jumpFrame (s : State) (p : Pc) (n : Nat) : JumpFrame s (s.goTo p n) where
  regs _ _ := rfl
  flags _ _ := rfl
  program := ⟨fun _ => rfl, rfl, rfl⟩
  io := ⟨fun _ => rfl, rfl⟩

/-- A branch of format BR that is `branchOn` of its flag and value. -/
theorem branchRule_of_branchOn {mk : Int → Instr} {base : Nat} {flag : Flag} {wanted : Bool}
    (s : BitVec 1) (b : BitVec 3) (hbase : 0xF000 + 1024 * s.toNat + b.toNat = base)
    (hencode : ∀ k, encode (mk k) = [encodeBR s k b])
    (hwf : ∀ k, inBranchRange k = true → (mk k).WellFormed)
    (hexec : ∀ k s, exec (mk k) s = .next (s.branchOn flag wanted k)) :
    BranchRule mk base flag wanted := by
  refine ⟨fun k hk => decode_ofNat (hwf k hk) (hencode k) ?_, fun k s => ⟨_, hexec k s, ?_⟩⟩
  · have hfield : (BitVec.ofInt 7 k).toNat = (k % 128).toNat := BitVec.toNat_ofInt k
    rw [encodeBR_toNat, hfield]
    omega
  · rcases s.branchOn_cases flag wanted k with ⟨hf, e⟩ | ⟨hf, e⟩ <;> rw [e]
    · exact ⟨s.goTo_jumpFrame _ 2, fun _ => s.relativeTarget_toInt k, fun h => absurd hf h⟩
    · exact ⟨s.goTo_jumpFrame _ 1, fun h => absurd h hf, fun _ => s.sequentialTarget_toNat⟩

/-- Settles O35. -/
theorem conditionalBranchesTestTheirFlag : Obligations.ConditionalBranchesTestTheirFlag :=
  ⟨branchRule_of_branchOn 1 1 rfl (fun _ => rfl) (fun _ h => ⟨h, rfl⟩) fun _ _ => rfl,
    branchRule_of_branchOn 0 1 rfl (fun _ => rfl) (fun _ h => ⟨h, rfl⟩) fun _ _ => rfl,
    branchRule_of_branchOn 0 0 rfl (fun _ => rfl) (fun _ h => ⟨h, rfl⟩) fun _ _ => rfl,
    branchRule_of_branchOn 1 0 rfl (fun _ => rfl) (fun _ h => ⟨h, rfl⟩) fun _ _ => rfl,
    branchRule_of_branchOn 0 2 rfl (fun _ => rfl) (fun _ h => ⟨h, rfl⟩) fun _ _ => rfl,
    branchRule_of_branchOn 1 2 rfl (fun _ => rfl) (fun _ h => ⟨h, rfl⟩) fun _ _ => rfl,
    branchRule_of_branchOn 0 3 rfl (fun _ => rfl) (fun _ h => ⟨h, rfl⟩) fun _ _ => rfl,
    branchRule_of_branchOn 1 3 rfl (fun _ => rfl) (fun _ h => ⟨h, rfl⟩) fun _ _ => rfl⟩

/-- Two branches on the two values of one flag. -/
theorem complementRule_of_branchOn {whenSet whenClear : Int → Instr} (flag : Flag)
    (hset : ∀ k s, exec (whenSet k) s = .next (s.branchOn flag true k))
    (hclear : ∀ k s, exec (whenClear k) s = .next (s.branchOn flag false k)) :
    ComplementRule whenSet whenClear := by
  refine fun k s => ⟨_, _, hset k s, hclear k s, ?_⟩
  cases hf : s.sreg.get flag with
  | true =>
    have ht : s.branchOn flag true k = s.goTo (s.relativeTarget k) 2 := if_pos hf
    have hu : s.branchOn flag false k = s.goTo s.sequentialTarget 1 := if_neg (by simp [hf])
    rw [ht, hu]
    exact ⟨.inl ⟨rfl, rfl⟩, by simp only [State.goTo_cycles]; omega⟩
  | false =>
    have ht : s.branchOn flag true k = s.goTo s.sequentialTarget 1 := if_neg (by simp [hf])
    have hu : s.branchOn flag false k = s.goTo (s.relativeTarget k) 2 := if_pos hf
    rw [ht, hu]
    exact ⟨.inr ⟨rfl, rfl⟩, by simp only [State.goTo_cycles]; omega⟩

/-- Settles O36. -/
theorem branchPairsAreComplements : Obligations.BranchPairsAreComplements :=
  ⟨complementRule_of_branchOn .C (fun _ _ => rfl) fun _ _ => rfl,
    complementRule_of_branchOn .Z (fun _ _ => rfl) fun _ _ => rfl,
    complementRule_of_branchOn .N (fun _ _ => rfl) fun _ _ => rfl,
    complementRule_of_branchOn .V (fun _ _ => rfl) fun _ _ => rfl⟩

/-- Settles O37: away from the ends of the range the sum does not wrap. -/
theorem branchReachIsSixtyFourWords : Obligations.BranchReachIsSixtyFourWords := by
  rintro i s t hbranch ⟨hrange, _⟩ hlo hhi h
  obtain ⟨⟨f, v⟩, hb⟩ := Option.ne_none_iff_exists'.mp hbranch
  obtain ⟨k, hk, hexec⟩ := exec_of_branchCondition hb
  obtain rfl := Host.Outcome.next.inj ((hexec s).symm.trans h)
  rw [hk, inBranchRange, Bool.and_eq_true, decide_eq_true_iff, decide_eq_true_iff] at hrange
  rcases s.branchOn_cases f v k with ⟨_, e⟩ | ⟨_, e⟩ <;> rw [e, State.goTo_pc]
  · have hpc := s.relativeTarget_toInt k
    rw [Int.emod_eq_of_lt (by omega) (by omega)] at hpc
    omega
  · have hpc := s.sequentialTarget_toNat
    rw [Nat.mod_eq_of_lt (by omega)] at hpc
    omega

/-- Settles O38. -/
theorem branchReadsOneFlag : Obligations.BranchReadsOneFlag := by
  intro i f v s u s' u' hb hf hpc hwidth hs hu
  obtain ⟨k, _, hexec⟩ := exec_of_branchCondition hb
  obtain rfl := Host.Outcome.next.inj ((hexec s).symm.trans hs)
  obtain rfl := Host.Outcome.next.inj ((hexec u).symm.trans hu)
  have hrelative : s.relativeTarget k = u.relativeTarget k := by
    rw [State.relativeTarget, State.relativeTarget, hpc, hwidth]
  have hnext : s.sequentialTarget = u.sequentialTarget := by
    rw [State.sequentialTarget, State.sequentialTarget, hpc, hwidth]
  rw [State.branchOn, State.branchOn, hf]
  split
  · exact ⟨hrelative, by simp only [State.goTo_cycles]; omega⟩
  · exact ⟨hnext, by simp only [State.goTo_cycles]; omega⟩

/-- Settles O39, from what DEC and BRNE do: BRNE tests the Z that DEC leaves. -/
theorem decThenBrneLoopsUnlessCounterWasOne :
    Obligations.DecThenBrneLoopsUnlessCounterWasOne := by
  intro n k s
  obtain ⟨_, t, ht, htframe, hval, ⟨hN, hZ, hS⟩, hV⟩ := decSubtractsOneAndSetsFlags n s
  obtain ⟨⟨_, hbrne⟩, _⟩ := conditionalBranchesTestTheirFlag
  obtain ⟨u, hu, huframe, htaken, hnot⟩ := hbrne k t
  have htpc := straightInstructionsGoToTheNextWord _ s t ht rfl nofun nofun nofun
  obtain ⟨_, _, hcfg⟩ := htframe.program
  have huflag (x : Flag) : u.sreg.get x = t.sreg.get x := huframe.flags x List.not_mem_nil
  have hlt := (s.readReg n).isLt
  have hone : s.readReg n = 1 ↔ (s.readReg n).toNat = 1 := BitVec.toNat_inj (y := 1).symm
  rw [htpc, hcfg] at htaken hnot
  refine ⟨t, u, ht, hu, (huflag .C).trans (htframe.flags .C (by decide)), fun h => ?_, fun h => ?_⟩
  · have hZ' : t.sreg.Z = false := by
      rw [← Bool.not_eq_true, hZ]
      rw [ne_eq, hone] at h
      omega
    rw [htaken hZ', Int.natCast_emod, Nat.cast_succ, add_assoc, Int.emod_add_emod, ← add_assoc]
  · rw [hone] at h
    have hR : (t.readReg n).toNat = 0 := by omega
    have hZ' : t.sreg.Z = true := hZ.mpr hR
    have hN' : t.sreg.N = false := by rw [← Bool.not_eq_true, hN]; omega
    have hV' : t.sreg.V = false := by rw [← Bool.not_eq_true, hV]; omega
    refine ⟨?_, ?_, (huflag .Z).trans hZ', (huflag .N).trans hN', (huflag .V).trans hV',
      (huflag .S).trans ?_⟩
    · rw [hnot (by rw [Sreg.get, hZ']; decide), Nat.mod_add_mod]
    · rw [huframe.regs n List.not_mem_nil]
      exact BitVec.eq_of_toNat_eq hR
    · exact hS.trans (by rw [hN', hV']; rfl)

/-! ### Jumps (R151 to R153, R67) -/

/-- Settles O40. -/
theorem jmpGoesToItsAddress : Obligations.JmpGoesToItsAddress := by
  refine fun k s => ⟨?_, fun hk => ⟨_, if_pos hk, rfl, s.goTo_jumpFrame k 3⟩,
    fun hk => if_neg (Nat.not_lt.mpr hk)⟩
  rw [ofNat_eq_of_toNat (encodeJmpFirst_toNat k), ofNat_eq_of_toNat (jmpSecond_toNat k)]
  exact decode_encode_jmp k []

/-- Settles O41. -/
theorem rjmpIsRelativeToTheNextWord : Obligations.RjmpIsRelativeToTheNextWord := by
  refine ⟨fun k hk => decode_ofNat ⟨hk, rfl⟩ (encode_rjmp k) ?_,
    fun k s => ⟨_, rfl, s.goTo_jumpFrame _ 2, s.relativeTarget_toInt k⟩⟩
  rw [encodeRJ_toNat, BitVec.toNat_ofInt]
  rfl

theorem State.zTarget_toNat (s : State) :
    s.zTarget.toNat = 256 * (s.readReg 31).toNat + (s.readReg 30).toNat := by
  have h : s.zPointer.toNat = _ := toNat_append_eq_add (s.readReg 31) (s.readReg 30)
  have hlt := s.zPointer.isLt
  rw [State.zTarget, BitVec.toNat_setWidth, Nat.mod_eq_of_lt (by omega), h]
  rfl

/-- Settles O42. -/
theorem ijmpGoesToZ : Obligations.IjmpGoesToZ :=
  ⟨rfl, fun s => ⟨_, rfl, s.goTo_jumpFrame _ 2, s.zTarget_toNat⟩⟩

/-- Settles O43: the displacement cancels the program counter. -/
theorem labelDisplacementReachesTheLabel : Obligations.LabelDisplacementReachesTheLabel := by
  intro s a ha
  have h := s.relativeTarget_toInt (displacement s.pc.toNat a)
  have hsum : (s.pc.toNat : Int) + displacement s.pc.toNat a + 1 = a := by
    rw [displacement]
    omega
  rw [hsum, Int.emod_eq_of_lt (by omega) (by omega)] at h
  exact_mod_cast h

/-! ### Where a run ends (R226) -/

/-- A run to `u`, and what is left of a longer run from there. -/
theorem core_run_of_add {j m : Nat} {s t u : State} (hu : Sys2Proof.core.run j s = .next u)
    (ht : Sys2Proof.core.run (j + m) s = .next t) : Sys2Proof.core.run m u = .next t := by
  induction j generalizing s with
  | zero =>
    obtain rfl := Host.Outcome.next.inj hu
    rwa [Nat.zero_add] at ht
  | succ j ih =>
    rw [Nat.add_right_comm] at ht
    obtain ⟨v, hv, hu⟩ := core_run_succ.mp hu
    obtain ⟨v', hv', ht⟩ := core_run_succ.mp ht
    obtain rfl := Host.Outcome.next.inj (hv.symm.trans hv')
    exact ih hu ht

theorem firstReaches_zero {P : State → Prop} {s t : State} :
    FirstReaches P s 0 t ↔ t = s ∧ P s := by
  constructor
  · rintro ⟨h, hP, _⟩
    obtain rfl := Host.Outcome.next.inj h
    exact ⟨rfl, hP⟩
  · rintro ⟨rfl, hP⟩
    exact ⟨rfl, hP, fun j u hj _ => absurd hj (Nat.not_lt_zero j)⟩

theorem firstReaches_succ {P : State → Prop} {s t : State} {k : Nat} :
    FirstReaches P s (k + 1) t ↔ ¬ P s ∧ ∃ u, step s = .next u ∧ FirstReaches P u k t := by
  constructor
  · rintro ⟨h, hP, hfirst⟩
    obtain ⟨u, hu, hrun⟩ := core_run_succ.mp h
    exact ⟨hfirst 0 s (Nat.succ_pos k) rfl, u, hu, hrun, hP, fun j v hj hv =>
      hfirst (j + 1) v (Nat.succ_lt_succ hj) (core_run_succ.mpr ⟨u, hu, hv⟩)⟩
  · rintro ⟨hs, u, hu, hrun, hP, hfirst⟩
    refine ⟨core_run_succ.mpr ⟨u, hu, hrun⟩, hP, fun j v hj hv => ?_⟩
    cases j with
    | zero => exact Host.Outcome.next.inj hv ▸ hs
    | succ j =>
      obtain ⟨u', hu', hv⟩ := core_run_succ.mp hv
      obtain rfl := Host.Outcome.next.inj (hu.symm.trans hu')
      exact hfirst j v (Nat.lt_of_succ_lt_succ hj) hv

/-- A first end boundary within the steps is where the run is over. -/
theorem runToEnd_of_firstReaches {k n : Nat} {s t : State} (h : FirstReaches EndBoundary s k t)
    (hk : k ≤ n) : runToEnd n s = .over t := by
  induction k generalizing n s with
  | zero =>
    obtain ⟨rfl, hs⟩ := firstReaches_zero.mp h
    exact runToEnd_of_over (t.runOver_iff.mpr hs) n
  | succ k ih =>
    obtain ⟨hs, u, hu, hfirst⟩ := firstReaches_succ.mp h
    obtain ⟨m, rfl⟩ : ∃ m, n = m + 1 := ⟨n - 1, by omega⟩
    have hnot : s.runOver = false := by rwa [← Bool.not_eq_true, s.runOver_iff]
    rw [runToEnd_succ hnot hu]
    exact ih hfirst (Nat.le_of_succ_le_succ hk)

theorem firstReaches_of_runToEnd {n : Nat} {s t : State} (h : runToEnd n s = .over t) :
    ∃ k, k ≤ n ∧ FirstReaches EndBoundary s k t := by
  induction n generalizing s with
  | zero =>
    rcases runToEnd_over_cases h with ⟨hs, rfl⟩ | ⟨_, m, _, hm, _⟩
    · exact ⟨0, Nat.le_refl 0, firstReaches_zero.mpr ⟨rfl, t.runOver_iff.mp hs⟩⟩
    · cases hm
  | succ n ih =>
    rcases runToEnd_over_cases h with ⟨hs, rfl⟩ | ⟨hs, m, u, hm, hu, hrun⟩
    · exact ⟨0, Nat.zero_le _, firstReaches_zero.mpr ⟨rfl, t.runOver_iff.mp hs⟩⟩
    · obtain rfl := Nat.succ.inj hm
      obtain ⟨k, hk, hfirst⟩ := ih hrun
      rw [← Bool.not_eq_true, s.runOver_iff] at hs
      exact ⟨k + 1, Nat.succ_le_succ hk, firstReaches_succ.mpr ⟨hs, u, hu, hfirst⟩⟩

/-- Settles O50. -/
theorem runEndsAtTheFirstEndBoundary : Obligations.RunEndsAtTheFirstEndBoundary :=
  fun _ _ _ => ⟨firstReaches_of_runToEnd, fun ⟨_, hk, h⟩ => runToEnd_of_firstReaches h hk⟩

/-- The jump to itself reaches itself. -/
theorem State.relativeTarget_neg_one {s : State} (h : s.pc.toNat < s.cfg.pcWidth.words) :
    s.relativeTarget (-1) = s.pc := by
  have hpc := s.relativeTarget_toInt (-1)
  rw [Int.neg_add_cancel_right, Int.emod_eq_of_lt (by omega) (by omega)] at hpc
  exact BitVec.eq_of_toNat_eq (by exact_mod_cast hpc)

/-- Settles O52, by induction on the number of steps. -/
theorem selfLoopEndsARunAndChangesNothing : Obligations.SelfLoopEndsARunAndChangesNothing := by
  intro n s hpc hloop
  refine ⟨runToEnd_of_over (s.runOver_iff.mpr (.inr hloop)) n, ?_⟩
  induction n generalizing s with
  | zero => rfl
  | succ n ih =>
    have hstep := step_selfLoop hloop
    rw [State.relativeTarget_neg_one hpc] at hstep
    have hcycles : s.cycles + 2 + 2 * n = s.cycles + 2 * (n + 1) := by omega
    refine core_run_succ.mpr ⟨_, hstep, ?_⟩
    rw [← hcycles]
    exact ih (s.goTo s.pc 2) hpc hloop

/-- Settles O51: a run stays at a self-loop, so that an end at `END_PC` after it would be an end at
`END_PC` already there. -/
theorem runEndsAtTheFirstBoundaryAtEndPc : Obligations.RunEndsAtTheFirstBoundaryAtEndPc := by
  rintro n k s t hs hk ⟨hrun, hend, hfirst⟩
  refine runToEnd_of_firstReaches ⟨hrun, .inl hend, fun j u hj hu hboundary => ?_⟩ hk
  rcases hboundary with hendPc | hloop
  · exact hfirst j u hj hu hendPc
  · have hinv : Inv u := holds_of_reachable (fun v w => stepKeepsInvariant v w) hs hu
    obtain ⟨m, rfl⟩ := Nat.exists_eq_add_of_lt hj
    rw [Nat.add_assoc] at hrun
    obtain ⟨_, hstay⟩ := selfLoopEndsARunAndChangesNothing (m + 1) u hinv.pc hloop
    obtain rfl := Host.Outcome.next.inj (hstay.symm.trans (core_run_of_add hu hrun))
    exact hfirst j u hj hu hend

end Sys2Proof.Machine
